-- ==== Sys2Proof/Word.lean ====
section
/-! DEFINITION. The words the core computes with (00_scope.md R8, R10): every value is unsigned. -/

namespace Sys2Proof

/-- `u32` (R8). -/
abbrev Word := BitVec 32

/-- `u8` (R8). -/
abbrev Byte := BitVec 8

/-- `u64` (R8): the sequence number. -/
abbrev Word64 := BitVec 64

/-- A finite string of bytes, first byte first (R10). -/
abbrev Bytes := List Byte

end Sys2Proof
end

