-- ==== Sys2Proof/Syntax.lean ====
section
/-! DEFINITION. The five commands of spec/opcode_table.json with the operands of 30_encoding.md R60. ILLEGAL(h) is no row
of the table: it is a result of decoding (Sys2Proof/Decode.lean). -/

namespace Sys2Proof

/-- A command the core executes (R60). -/
inductive Instr where
  /-- CONSTRUCT(key, nonce, counter), R63 and R82. -/
  | construct (key nonce : Bytes) (counter : Word)
  /-- RESET_SEQ(seq), R64 and R86. -/
  | resetSeq (seq : Word64)
  /-- NEXT_BLOCK, R65 and R110. -/
  | nextBlock
  /-- ENCRYPT(src, dst), R66 and R131; `dst` is the destination buffer's present contents. -/
  | encrypt (src dst : Bytes)
  /-- DECRYPT(src, dst), R66 and R132. -/
  | decrypt (src dst : Bytes)
deriving DecidableEq, Repr

end Sys2Proof
end

