-- ==== Sys2Proof/WellFormed.lean ====
section
/-! DEFINITION. Which commands a frame can carry: every length field is a u32 (00_scope.md R6, 30_encoding.md R63, R66, D4).
Operand values are never checked here (R70): short keys and short buffers are well-formed and answered by the command. -/

namespace Sys2Proof

/-- The length of `b` fits a u32 length field (R6: 0 .. 2^32-1 bytes). -/
def lengthFits (b : Bytes) : Bool := decide (b.length < 2 ^ 32)

/-- The command has a frame. -/
def Instr.wellFormed : Instr → Bool
  | .construct key nonce _ => lengthFits key && lengthFits nonce
  | .resetSeq _ => true
  | .nextBlock => true
  | .encrypt src dst => lengthFits src && lengthFits dst
  | .decrypt src dst => lengthFits src && lengthFits dst

end Sys2Proof
end

