-- ==== Sys2Proof/Decode.lean ====
section
/-! DEFINITION. Command frames (30_encoding.md): the little-endian conversions of 00_scope.md R11, the decoder of R70, total
on any byte stream, and the encoder of R63 to R66. -/

namespace Sys2Proof

/-! ### Little-endian conversions (R11, R46) -/

/-- `b[i]` as a 32-bit number. A byte past the end reads 0; no caller reads one (log 15). -/
def byteAt32 (b : Bytes) (i : Nat) : Word := (b.getD i 0).setWidth 32

/-- `le32(b, i)` (R11). -/
def le32 (b : Bytes) (i : Nat) : Word :=
  byteAt32 b i ||| (byteAt32 b (i + 1) <<< 8) ||| (byteAt32 b (i + 2) <<< 16) ||| (byteAt32 b (i + 3) <<< 24)

/-- `b[i]` as a 64-bit number. A byte past the end reads 0; no caller reads one (log 15). -/
def byteAt64 (b : Bytes) (i : Nat) : Word64 := (b.getD i 0).setWidth 64

/-- `le64(b, i)` (R11). -/
def le64 (b : Bytes) (i : Nat) : Word64 :=
  byteAt64 b i ||| (byteAt64 b (i + 1) <<< 8) ||| (byteAt64 b (i + 2) <<< 16) ||| (byteAt64 b (i + 3) <<< 24) |||
  (byteAt64 b (i + 4) <<< 32) ||| (byteAt64 b (i + 5) <<< 40) ||| (byteAt64 b (i + 6) <<< 48) ||| (byteAt64 b (i + 7) <<< 56)

/-- `bytes_le32(w)` (R11). -/
def bytesLe32 (w : Word) : Bytes :=
  [w.extractLsb' 0 8, w.extractLsb' 8 8, w.extractLsb' 16 8, w.extractLsb' 24 8]

/-- `bytes_le64(q)` (R11). -/
def bytesLe64 (q : Word64) : Bytes :=
  [q.extractLsb' 0 8, q.extractLsb' 8 8, q.extractLsb' 16 8, q.extractLsb' 24 8,
   q.extractLsb' 32 8, q.extractLsb' 40 8, q.extractLsb' 48 8, q.extractLsb' 56 8]

/-- `zeros(n)` (R10). -/
def zeros (n : Nat) : Bytes := List.replicate n 0

/-! ### The header word (R61, R62) -/

/-- `H[3:0]`, the opcode (R61). -/
def headerOP (h : Word) : BitVec 4 := h.extractLsb' 0 4

/-- `H[31:4]`, reserved, must be 0 (R61). -/
def headerRES (h : Word) : BitVec 28 := h.extractLsb' 4 28

/-- The whole header word of a command (R62). -/
def headerOf : Instr → Word
  | .construct _ _ _ => 0x00000001
  | .resetSeq _ => 0x00000002
  | .nextBlock => 0x00000003
  | .encrypt _ _ => 0x00000004
  | .decrypt _ _ => 0x00000005

/-! ### Reading fields off a stream -/

/-- The next `n` bytes and the stream after them; none while fewer have arrived (R71). -/
def takeBytes (n : Nat) (stream : Bytes) : Option (Bytes × Bytes) :=
  if n ≤ stream.length then some (stream.take n, stream.drop n) else none

/-- The next four bytes as a u32 field. -/
def takeLe32 (stream : Bytes) : Option (Word × Bytes) :=
  (takeBytes 4 stream).map fun p => (le32 p.1 0, p.2)

/-- The next eight bytes as a u64 field. -/
def takeLe64 (stream : Bytes) : Option (Word64 × Bytes) :=
  (takeBytes 8 stream).map fun p => (le64 p.1 0, p.2)

/-- A length field and the bytes it counts; "Each length field is read before the bytes it counts" (R67). -/
def takeCounted (stream : Bytes) : Option (Bytes × Bytes) :=
  (takeLe32 stream).bind fun p => takeBytes p.1.toNat p.2

/-- KLEN, KEY, NLEN, NONCE, CTR (R63). -/
def takeConstruct (stream : Bytes) : Option (Instr × Bytes) :=
  (takeCounted stream).bind fun key =>
  (takeCounted key.2).bind fun nonce =>
  (takeLe32 nonce.2).map fun ctr => (.construct key.1 nonce.1 ctr.1, ctr.2)

/-- SEQ (R64). -/
def takeResetSeq (stream : Bytes) : Option (Instr × Bytes) :=
  (takeLe64 stream).map fun seq => (.resetSeq seq.1, seq.2)

/-- SLEN, SRC, DLEN, DST (R66). -/
def takeBuffers (stream : Bytes) : Option ((Bytes × Bytes) × Bytes) :=
  (takeCounted stream).bind fun src =>
  (takeCounted src.2).map fun dst => ((src.1, dst.1), dst.2)

/-! ### The decoder (R70) -/

/-- What the decoder reads from the front of a stream. -/
inductive Decoded where
  /-- A whole frame of a legal command, and the bytes after it. -/
  | command (i : Instr) (rest : Bytes)
  /-- ILLEGAL(h): an illegal header word, and the bytes after its four (R69). -/
  | illegal (h : Word) (rest : Bytes)
  /-- HOLD: the stream ends before the frame does (R71). -/
  | hold
deriving DecidableEq, Repr

/-- A legal header's operand fields, or HOLD while they are incomplete. -/
def decodedOrHold : Option (Instr × Bytes) → Decoded
  | some p => .command p.1 p.2
  | none => .hold

/-- The operand fields that the header `h` announces (R70's case on H). -/
def decodeFields (h : Word) (rest : Bytes) : Decoded :=
  if h = 0x00000001 then decodedOrHold (takeConstruct rest)
  else if h = 0x00000002 then decodedOrHold (takeResetSeq rest)
  else if h = 0x00000003 then .command .nextBlock rest
  else if h = 0x00000004 then decodedOrHold ((takeBuffers rest).map fun p => (.encrypt p.1.1 p.1.2, p.2))
  else if h = 0x00000005 then decodedOrHold ((takeBuffers rest).map fun p => (.decrypt p.1.1 p.1.2, p.2))
  else .illegal h rest

/-- `decode(stream)` (R70). -/
def decode (stream : Bytes) : Decoded :=
  match takeLe32 stream with
  | none => .hold
  | some p => decodeFields p.1 p.2

/-- The stream without its first frame, be it a command's or an illegal header (R69); none while that frame is incomplete. -/
def dropFrame (stream : Bytes) : Option Bytes :=
  match decode stream with
  | .command _ rest => some rest
  | .illegal _ rest => some rest
  | .hold => none

/-- What is left of a stream after its frames, of which at most `n` are taken off: each frame is decoded from the byte after
the one before it ended (R178). -/
def afterFrames : Nat → Bytes → Bytes
  | 0, stream => stream
  | n + 1, stream =>
    match dropFrame stream with
    | some rest => afterFrames n rest
    | none => stream

/-- The frame that is cut short at the end of a stream (R71), empty where the stream ends at a frame boundary. -/
def unfinished (stream : Bytes) : Bytes := afterFrames stream.length stream

/-! ### The encoder (R63 to R66) -/

/-- A length field and the bytes it counts. -/
def putCounted (b : Bytes) : Bytes := bytesLe32 (BitVec.ofNat 32 b.length) ++ b

/-- The operand fields of a frame, back to back with no padding (R60). -/
def encodeFields : Instr → Bytes
  | .construct key nonce counter => putCounted key ++ putCounted nonce ++ bytesLe32 counter
  | .resetSeq seq => bytesLe64 seq
  | .nextBlock => []
  | .encrypt src dst => putCounted src ++ putCounted dst
  | .decrypt src dst => putCounted src ++ putCounted dst

/-- The command frame of a command (R60): its header word, then its fields. -/
def encode (i : Instr) : Bytes := bytesLe32 (headerOf i) ++ encodeFields i

/-- The frame length the spec gives each command (R63 to R66). -/
def frameLength : Instr → Nat
  | .construct key nonce _ => 16 + key.length + nonce.length
  | .resetSeq _ => 12
  | .nextBlock => 4
  | .encrypt src dst => 12 + src.length + dst.length
  | .decrypt src dst => 12 + src.length + dst.length

/-! ### The opcode table's words -/

/-- Byte `k` of the stream whose first `nbits` bits are `w` and whose later bits are 0. -/
def tableByte (nbits w k : Nat) : Byte := BitVec.ofNat 8 ((w % 2 ^ nbits) / 2 ^ (8 * k))

/-- The u32 field at byte offset `k` of that stream. -/
def tableField (nbits w k : Nat) : Nat := (w % 2 ^ nbits) / 2 ^ (8 * k) % 2 ^ 32

/-- The length of that stream's first frame (R63 to R66, R69). -/
def tableFrameLength (nbits w : Nat) : Nat :=
  let h := tableField nbits w 0
  let first := tableField nbits w 4
  let second := tableField nbits w (8 + first)
  if h = 1 then 16 + first + second
  else if h = 2 then 12
  else if h = 4 ∨ h = 5 then 12 + first + second
  else 4

/-- That stream's first frame, exactly (log 13). -/
def frameOfTableWord (nbits w : Nat) : Bytes :=
  (List.range (tableFrameLength nbits w)).map (tableByte nbits w)

/-- The command the decoder reads from a word of the opcode table, none where it refuses. -/
def decodeTableWord (nbits w : Nat) : Option Instr :=
  match decode (frameOfTableWord nbits w) with
  | .command i _ => some i
  | .illegal _ _ => none
  | .hold => none

end Sys2Proof
end

