-- ==== Sys2Proof/Config.lean ====
section
/-! DEFINITION. What the spec leaves to the implementation: free values, none of which has a body, so that nothing can be
proved about the value itself. The algorithm has no other parameter (00_scope.md R7). -/

namespace Sys2Proof

/-- S as the core powers up. DESIGN CHOICE (log 3): R34 and R170 give it no value, U2 says any value. -/
opaque Config.powerOnS : Vector Word 16

/-- KS as the core powers up. DESIGN CHOICE (log 3): R34, R170, U3. -/
opaque Config.powerOnKS : Vector Byte 64

/-- S after a later reset: may be kept, cleared or anything else ("Whether the hardware also clears S and KS to zero is
not specified", R170). It depends on the number of the draw and on what S held before. DESIGN CHOICE (log 5). -/
opaque Config.resetS : Nat → Vector Word 16 → Vector Word 16

/-- KS after a later reset. DESIGN CHOICE (log 5). -/
opaque Config.resetKS : Nat → Vector Byte 64 → Vector Byte 64

/-- `LAT_CONSTRUCT` (R6, R181), free to depend on KLEN and NLEN (R183). DESIGN CHOICE (log 8). -/
opaque Config.latConstruct : Nat → Nat → Nat

/-- `LAT_RESET_SEQ` (R6, R181). -/
opaque Config.latResetSeq : Nat

/-- `LAT_NEXT_BLOCK` (R6, R181). -/
opaque Config.latNextBlock : Nat

/-- `LAT_XOR(n)` of ENCRYPT (R6, R181), free to depend on SLEN and DLEN (R183). DESIGN CHOICE (log 8). -/
opaque Config.latEncrypt : Nat → Nat → Nat

/-- `LAT_XOR(n)` of DECRYPT, in the same way; R183 lets latency depend on the opcode. DESIGN CHOICE (log 8). -/
opaque Config.latDecrypt : Nat → Nat → Nat

end Sys2Proof
end

