-- ==== Sys2Proof/Machine/State.lean ====
section
/-! DEFINITION. What the core holds (10_state.md), the response codes, and how a step can stop. -/

namespace Sys2Proof.Machine

/-- The whole state: S, KS and VALID (R32), the two byte streams of the ports (R60), and two fields of the model's own. -/
structure State where
  /-- The state register, words S[0]..S[15] (R20): constants, key, counter, nonce. -/
  S : Vector Word 16
  /-- The keystream buffer, bytes KS[0]..KS[63] (R29); no command reads it (R30). -/
  KS : Vector Byte 64
  /-- The instance-present flag (R27). -/
  VALID : Bool
  /-- Bytes delivered to the command port and not yet consumed, first byte first (R60, R71, R177). -/
  cmdPort : Bytes
  /-- Bytes of the response frames not yet taken by the host, first byte first (R60, R68, R170). -/
  respPort : Bytes
  /-- The MODEL's own: which host the command port took bytes from last. While a frame is unfinished that host alone is
  listened to, so that no frame mixes two hosts' bytes (R51, log 9). No command reads it (R160). -/
  sender : Nat
  /-- The MODEL's own: how many free values resets have drawn (log 4). -/
  draw : Nat
deriving DecidableEq, Repr

/-- How a step can stop without a next state. -/
inductive Fault where
  /-- Raised by `step` alone, when the command port holds no whole frame (R70's HOLD). The core waits; "the model records
  this as a stuck core, not as an error" (R71, U8). Safe: the state is untouched and runs on when bytes arrive (log 2). -/
  | awaitingFrame
deriving DecidableEq, Repr

/-- Commands without a meaning. -/
inductive Refusal where
  /-- Raised by `exec` for a command not modelled yet; no arm does. Safe: the model stops. -/
  | notModelled (mnemonic : String)
deriving DecidableEq, Repr

/-- The response codes (60_exceptions.md R150): "No other value is ever sent". -/
inductive RespCode where
  /-- Success. -/
  | ok
  /-- Raised by CONSTRUCT on a short key or nonce (R81, R154). -/
  | configurationError
  /-- Raised by ENCRYPT and DECRYPT on a destination shorter than the source (R136, R155). -/
  | bufferSizeError
  /-- The answer to an illegal header word (R69, R153). -/
  | illegalCommand
  /-- Raised by RESET_SEQ, NEXT_BLOCK, ENCRYPT and DECRYPT while VALID = 0 (R152). -/
  | notConfigured
deriving DecidableEq, Repr

/-- The outcome of a command. -/
abbrev Result := Host.Outcome State Fault Refusal

/-- The core right after reset (R34, R170, R171): VALID = 0, idle, no byte on either port. S and KS have no value the spec
gives and hold free values (DESIGN CHOICE, log 3); `draw` starts at 0 (DESIGN CHOICE, log 4), and
`sender` at 0, which means nothing while the port is empty (DESIGN CHOICE, log 9). -/
def State.reset : State where
  S := Config.powerOnS
  KS := Config.powerOnKS
  VALID := false
  cmdPort := []
  respPort := []
  sender := 0
  draw := 0

end Sys2Proof.Machine
end

