-- ==== Sys2Proof/Machine/Ops.lean ====
section
/-! DEFINITION. The operations every command is built from: rotation, the writes of S, KS and VALID, the block counter,
the response frame, and the error answer `raise` (00_scope.md R9, R12; 30_encoding.md R68; 60_exceptions.md R151). -/

namespace Sys2Proof.Machine

/-- `rotl32(x, n)` (R9): circular, by 16, 12, 8 or 7. -/
def rotl32 (x : Word) (n : Nat) : Word := (x <<< n) ||| (x >>> (32 - n))

/-! ### Writes (R12) -/

/-- Write the state register. -/
def State.writeS (s : State) (words : Vector Word 16) : State := { s with S := words }

/-- `KS <- b`: all 64 bytes. -/
def State.writeKS (s : State) (block : Vector Byte 64) : State := { s with KS := block }

/-- `VALID <- v`. -/
def State.writeVALID (s : State) (v : Bool) : State := { s with VALID := v }

/-- Leave `rest` on the command port: the frame before it is consumed (R178). -/
def State.setCmdPort (s : State) (rest : Bytes) : State := { s with cmdPort := rest }

/-! ### The block counter S[12] (R23, R106) -/

/-- The words `S` with the counter word replaced: "S with S[12] = c" (R108). -/
def withCounter (S : Vector Word 16) (c : Word) : Vector Word 16 := S.set 12 c

/-- `S[12] <- S[12] + 1` modulo 2^32, no carry into S[13] (R106). -/
def advanceCounter (S : Vector Word 16) : Vector Word 16 := withCounter S (S[12] + 1)

/-! ### Responses -/

/-- The number of a response code (R150). -/
def respCodeValue : RespCode → Word
  | .ok => 0
  | .configurationError => 1
  | .bufferSizeError => 2
  | .illegalCommand => 3
  | .notConfigured => 4

/-- `respond(code, payload)` (R68). -/
def respond (code : RespCode) (payload : Bytes) : Bytes := bytesLe32 (respCodeValue code) ++ payload

/-- Put one response frame on the response port, after those already there (R177). -/
def State.answer (s : State) (code : RespCode) (payload : Bytes) : State :=
  { s with respPort := s.respPort ++ respond code payload }

/-- `respond(OK, payload)`: a command ends well in the state `s`. -/
def complete (payload : Bytes) (s : State) : Result := .next (s.answer .ok payload)

/-- `raise <Error>` (R12, R151): nothing of S, KS or VALID is written, and the response is the code alone. This is all there
is to an error: no saved state, no mode, no vector (R158) and nothing to return from (R159). -/
def raise (code : RespCode) (s : State) : Result := .next (s.answer code [])

/-- ILLEGAL(h): answered with IllegalCommand, no state changed, the header not recorded (R150, R153). -/
def execIllegal (_h : Word) (s : State) : Result := raise .illegalCommand s

/-! ### Fetching a frame -/

/-- Read the frame at the front of the command port (R60, R178). -/
def fetch (s : State) : Decoded := decode s.cmdPort

end Sys2Proof.Machine
end

