-- ==== Sys2Proof/Machine/Flags.lean ====
section
/-! DEFINITION. VALID, the core's only flag (10_state.md R27, R28): who reads it. CONSTRUCT sets it, reset clears it. -/

namespace Sys2Proof.Machine

/-- RESET_SEQ, NEXT_BLOCK, ENCRYPT and DECRYPT read VALID first and raise NotConfigured when it is 0 (R152). -/
def requireVALID (s : State) (body : Result) : Result :=
  if s.VALID then body else raise .notConfigured s

end Sys2Proof.Machine
end

