-- ==== Sys2Proof/Machine/Operands.lean ====
section
/-! DEFINITION. Operands: the words a key, a nonce and a sequence number decode to, and the length checks. -/

namespace Sys2Proof.Machine

/-- `key` or `nonce` too short for CONSTRUCT (R81). -/
def constructTooShort (key nonce : Bytes) : Bool := decide (key.length < 32) || decide (nonce.length < 12)

/-- `len(dst) < len(src)` (R136). -/
def bufferTooShort (src dst : Bytes) : Bool := decide (dst.length < src.length)

/-- Key word `k`, the word S[4 + k] (R22, R42). -/
def keyWord (key : Bytes) (k : Nat) : Word := le32 key (4 * k)

/-- Nonce word `k`, the word S[13 + k] (R24, R43). -/
def nonceWord (nonce : Bytes) (k : Nat) : Word := le32 nonce (4 * k)

/-- `seq[31:0]` (R45). -/
def seqLow (seq : Word64) : Word := seq.extractLsb' 0 32

/-- `seq[63:32]` (R45). -/
def seqHigh (seq : Word64) : Word := seq.extractLsb' 32 32

/-- The sixteen words CONSTRUCT writes (R20, R21, R82); bytes past 31 of the key and past 11 of the nonce are not used (R83). -/
def constructedS (key nonce : Bytes) (counter : Word) : Vector Word 16 :=
  #v[0x61707865, 0x3320646e, 0x79622d32, 0x6b206574,
     keyWord key 0, keyWord key 1, keyWord key 2, keyWord key 3,
     keyWord key 4, keyWord key 5, keyWord key 6, keyWord key 7,
     counter, nonceWord nonce 0, nonceWord nonce 1, nonceWord nonce 2]

/-- The words RESET_SEQ leaves (R86): S[12], S[14] and S[15] written, S[13] kept (R87). -/
def resequencedS (S : Vector Word 16) (seq : Word64) : Vector Word 16 :=
  ((withCounter S 0x00000001).set 14 (seqLow seq)).set 15 (seqHigh seq)

end Sys2Proof.Machine
end

