-- ==== Sys2Proof/Machine/StateLoad.lean ====
section
/-! DEFINITION. State register loads (40_state_load.md): CONSTRUCT and RESET_SEQ. -/

namespace Sys2Proof.Machine

/-- CONSTRUCT (R82). It never raises NotConfigured, replaces any instance (R84), and does not write KS. -/
def execConstruct (key nonce : Bytes) (counter : Word) (s : State) : Result :=
  if constructTooShort key nonce then raise .configurationError s
  else complete [] ((s.writeS (constructedS key nonce counter)).writeVALID true)

/-- RESET_SEQ (R86). -/
def execResetSeq (seq : Word64) (s : State) : Result :=
  requireVALID s (complete [] (s.writeS (resequencedS s.S seq)))

end Sys2Proof.Machine
end

