-- ==== Sys2Proof/Machine/BlockTransform.lean ====
section
/-! DEFINITION. The block transform and the keystream generator (41_block_transform.md), and NEXT_BLOCK. -/

namespace Sys2Proof.Machine

/-- The quarter-round (R100), in exactly this order. Irreducible, so that no proof about where it is applied computes it; the
kernel and `rw [QR]` still unfold it. -/
@[irreducible]
def QR (a b c d : Word) : Word × Word × Word × Word :=
  let a := a + b; let d := d ^^^ a; let d := rotl32 d 16
  let c := c + d; let b := b ^^^ c; let b := rotl32 b 12
  let a := a + b; let d := d ^^^ a; let d := rotl32 d 8
  let c := c + d; let b := b ^^^ c; let b := rotl32 b 7
  (a, b, c, d)

/-- Four word indices, in the quarter-round's order a, b, c, d (R102). -/
abbrev Group := Fin 16 × Fin 16 × Fin 16 × Fin 16

/-- The column groups (R102). -/
def columnGroups : List Group := [(0, 4, 8, 12), (1, 5, 9, 13), (2, 6, 10, 14), (3, 7, 11, 15)]

/-- The diagonal groups (R102). -/
def diagonalGroups : List Group := [(0, 5, 10, 15), (1, 6, 11, 12), (2, 7, 8, 13), (3, 4, 9, 14)]

/-- The quarter-round on the four words of a group, in place (R103). -/
def quarterRoundAt (W : Vector Word 16) (g : Group) : Vector Word 16 :=
  let r := QR W[g.1] W[g.2.1] W[g.2.2.1] W[g.2.2.2]
  (((W.set g.1 r.1).set g.2.1 r.2.1).set g.2.2.1 r.2.2.1).set g.2.2.2 r.2.2.2

/-- The quarter-rounds of a list of groups, one after the other. -/
def applyGroups (groups : List Group) (W : Vector Word 16) : Vector Word 16 := groups.foldl quarterRoundAt W

/-- One double round: the columns, then the diagonals (R103). -/
def DR (W : Vector Word 16) : Vector Word 16 := applyGroups diagonalGroups (applyGroups columnGroups W)

/-- `n` double rounds. -/
def doubleRounds : Nat → Vector Word 16 → Vector Word 16
  | 0, W => W
  | n + 1, W => doubleRounds n (DR W)

/-- X of the block function: ten double rounds, then the wrapping add of the original words (R104 steps 1 to 4). -/
def blockWords (S : Vector Word 16) : Vector Word 16 := Vector.zipWith (· + ·) (doubleRounds 10 S) S

/-- Sixteen words as 64 bytes: byte 4i + m is bits 8m+7..8m of word i (R105, R44). -/
def serialize (X : Vector Word 16) : Vector Byte 64 :=
  Vector.ofFn fun k : Fin 64 => X[k.val / 4].extractLsb' (8 * (k.val % 4)) 8

/-- `BLOCK(S)` (R104, R107): it writes nothing. Irreducible for the reason QR is. -/
@[irreducible]
def BLOCK (S : Vector Word 16) : Vector Byte 64 := serialize (blockWords S)

/-- `GEN(S)` (R108): the block of S, and S with its counter advanced (R106). -/
def GEN (S : Vector Word 16) : Vector Byte 64 × Vector Word 16 := (BLOCK S, advanceCounter S)

/-- `m` calls of GEN in a row: the blocks in order, and S after them (R108). -/
def GENs : Nat → Vector Word 16 → List (Vector Byte 64) × Vector Word 16
  | 0, S => ([], S)
  | m + 1, S =>
    let first := GEN S
    let later := GENs m first.2
    (first.1 :: later.1, later.2)

/-- NEXT_BLOCK (R110): the block goes into KS and into the response. -/
def execNextBlock (s : State) : Result :=
  requireVALID s
    (complete (GEN s.S).1.toList ((s.writeS (GEN s.S).2).writeKS (GEN s.S).1))

end Sys2Proof.Machine
end

