-- ==== Sys2Proof/Machine/StreamCipher.lean ====
section
/-! DEFINITION. The stream-XOR kernel (42_stream_cipher.md), ENCRYPT and DECRYPT. -/

namespace Sys2Proof.Machine

/-- What the kernel leaves: the new destination, S and KS (R130). -/
structure XorResult where
  out : Bytes
  S : Vector Word 16
  KS : Vector Byte 64
deriving DecidableEq, Repr

/-- The kernel's loop from byte index `i` on (R130): `src` and `dst` are what is left of the buffers. A fresh block is drawn
where `i mod 64 = 0`; bytes of `dst` past the source keep their values. A destination shorter than the source is refused
before the loop (R136), so the second case is never reached (log 15). -/
def xorFrom (i : Nat) : Bytes → Bytes → Vector Word 16 → Vector Byte 64 → XorResult
  | [], dst, S, KS => ⟨dst, S, KS⟩
  | _ :: _, [], S, KS => ⟨[], S, KS⟩
  | b :: src, _ :: dst, S, KS =>
    let KS := if i % 64 = 0 then (GEN S).1 else KS
    let S := if i % 64 = 0 then (GEN S).2 else S
    let later := xorFrom (i + 1) src dst S KS
    ⟨(b ^^^ KS[i % 64]) :: later.out, later.S, later.KS⟩

/-- `XORK(src, dst)` (R130): the index starts at 0 on every call (R134). -/
def XORK (src dst : Bytes) (S : Vector Word 16) (KS : Vector Byte 64) : XorResult := xorFrom 0 src dst S KS

/-- The algorithm ENCRYPT and DECRYPT share (R131, R132): VALID, then the buffer check, then the kernel. -/
def streamXor (src dst : Bytes) (s : State) : Result :=
  requireVALID s
    (if bufferTooShort src dst then raise .bufferSizeError s
     else
      let r := XORK src dst s.S s.KS
      complete (bytesLe32 (BitVec.ofNat 32 src.length) ++ r.out) ((s.writeS r.S).writeKS r.KS))

/-- ENCRYPT (R131): src is plaintext, dst receives ciphertext. -/
def execEncrypt (src dst : Bytes) (s : State) : Result := streamXor src dst s

/-- DECRYPT (R132): src is ciphertext, dst receives plaintext. -/
def execDecrypt (src dst : Bytes) (s : State) : Result := streamXor src dst s

end Sys2Proof.Machine
end

