-- ==== Sys2Proof/Machine/Dispatch.lean ====
section
/-! DEFINITION. One command, one meaning. -/

namespace Sys2Proof.Machine

/-- The meaning of each command of R60; all of them always answer a next state. -/
def exec (i : Instr) (s : State) : Host.Outcome State Fault Refusal :=
  match i with
  | .construct key nonce counter => Sys2Proof.Machine.execConstruct key nonce counter s
  | .resetSeq seq => Sys2Proof.Machine.execResetSeq seq s
  | .nextBlock => Sys2Proof.Machine.execNextBlock s
  | .encrypt src dst => Sys2Proof.Machine.execEncrypt src dst s
  | .decrypt src dst => Sys2Proof.Machine.execDecrypt src dst s

end Sys2Proof.Machine
end

