-- ==== Sys2Proof/Machine/Step.lean ====
section
/-! DEFINITION. One step: decode the frame at the front of the command port, consume it, run it (30_encoding.md R60, R70). -/

namespace Sys2Proof.Machine

/-- One step of the core. A whole frame of a command is consumed and executed; an illegal header word consumes its four
bytes and is answered (R69, R153); with no whole frame the core is stuck until bytes arrive (R71). -/
def step (s : State) : Host.Outcome State Fault Refusal :=
  match fetch s with
  | .command i rest => exec i (s.setCmdPort rest)
  | .illegal h rest => execIllegal h (s.setCmdPort rest)
  | .hold => .fault .awaitingFrame

/-- The state in which the frame of a table word is the next to arrive: it stands at the front of the command port, ahead of
what is there (log 13). -/
def State.withFetchWord (s : State) (nbits w : Nat) : State :=
  s.setCmdPort (frameOfTableWord nbits w ++ s.cmdPort)

end Sys2Proof.Machine
end

