-- ==== Sys2Proof/Machine/Assembler.lean ====
section
/-! DEFINITION. The assembly notation of 30_encoding.md R72 and its pseudo-instructions (R73). -/

namespace Sys2Proof.Machine

/-- A line of assembly. -/
inductive AsmLine where
  | construct (key nonce : Bytes) (counter : Word)
  | resetSeq (seq : Word64)
  | nextBlock
  | encrypt (src dst : Bytes)
  | decrypt (src dst : Bytes)
  /-- `.word`: a raw header word, to write an illegal frame. -/
  | word (h : Word)
  /-- `KEYSTREAM n` (R73). -/
  | keystream (n : Nat)
  /-- `XOR_INPLACE src=<b>` (R73). -/
  | xorInplace (src : Bytes)
deriving DecidableEq, Repr

/-- `bytes(a..b)`: the ascending bytes a, a+1, .., b (R72). -/
def ascendingBytes (a b : Nat) : Bytes := (List.range (b + 1 - a)).map fun k => BitVec.ofNat 8 (a + k)

/-- `KEYSTREAM n` expands to `ENCRYPT src=zeros(n), dst=zeros(n)` (R73). -/
def keystreamCommand (n : Nat) : Instr := .encrypt (zeros n) (zeros n)

/-- `XOR_INPLACE src=<b>` expands to `ENCRYPT src=<b>, dst=<b>` (R73). -/
def xorInplaceCommand (src : Bytes) : Instr := .encrypt src src

/-- The frame a line assembles to, "with the lengths filled in from the byte strings" (R72). -/
def assemble : AsmLine → Bytes
  | .construct key nonce counter => encode (.construct key nonce counter)
  | .resetSeq seq => encode (.resetSeq seq)
  | .nextBlock => encode .nextBlock
  | .encrypt src dst => encode (.encrypt src dst)
  | .decrypt src dst => encode (.decrypt src dst)
  | .word h => bytesLe32 h
  | .keystream n => encode (keystreamCommand n)
  | .xorInplace src => encode (xorInplaceCommand src)

/-- One hexadecimal digit. -/
def hexDigit (n : Nat) : String := String.singleton (Nat.digitChar (n % 16))

/-- A byte as two hexadecimal digits. -/
def hexByte (b : Byte) : String := hexDigit (b.toNat / 16) ++ hexDigit b.toNat

/-- A byte string in brackets, first byte first (R72). -/
def bytesText (b : Bytes) : String := "[" ++ String.intercalate " " (b.map hexByte) ++ "]"

/-- A line as R72 and R73 write it, byte strings in full and numbers in decimal (log 12). -/
def asmText : AsmLine → String
  | .construct key nonce counter =>
    "CONSTRUCT key=" ++ bytesText key ++ ", nonce=" ++ bytesText nonce ++ ", counter=" ++ toString counter.toNat
  | .resetSeq seq => "RESET_SEQ " ++ toString seq.toNat
  | .nextBlock => "NEXT_BLOCK"
  | .encrypt src dst => "ENCRYPT src=" ++ bytesText src ++ ", dst=" ++ bytesText dst
  | .decrypt src dst => "DECRYPT src=" ++ bytesText src ++ ", dst=" ++ bytesText dst
  | .word h => ".word " ++ toString h.toNat
  | .keystream n => "KEYSTREAM " ++ toString n
  | .xorInplace src => "XOR_INPLACE src=" ++ bytesText src

end Sys2Proof.Machine
end

