-- ==== Sys2Proof/Machine/Ports.lean ====
section
/-! DEFINITION. What the world outside does to the core between steps (30_encoding.md R60, 70_reset_and_hazards.md R170). -/

namespace Sys2Proof.Machine

/-- An act of a host (log 1). Several hosts may share the command port (R51); they are told apart by a number, which no
command sees (R160). -/
inductive HostAction where
  /-- A host delivers bytes to the command port: a frame, several, or a piece of one (R60, R71, R177). -/
  | send (host : Nat) (bytes : Bytes)
  /-- Take the first `n` bytes off the response port (R60). -/
  | receive (n : Nat)
  /-- Assert reset (R170). -/
  | reset
deriving DecidableEq, Repr

/-- Reset of a running core (R170): VALID <- 0, a partly received frame discarded, an undelivered response lost, the decode
at a frame boundary (R171). S and KS are left with free values (log 5). -/
def hardReset (s : State) : State where
  S := Config.resetS s.draw s.S
  KS := Config.resetKS s.draw s.KS
  VALID := false
  cmdPort := []
  respPort := []
  sender := 0
  draw := s.draw + 1

/-- The command port listens to a host: to any at a frame boundary, and inside a frame to the one whose frame it is. So the
hosts' commands interleave whole and in any order, and "no interleaving inside a command" is allowed (R51, log 9). -/
def State.accepts (s : State) (host : Nat) : Bool := unfinished s.cmdPort == [] || s.sender == host

/-- Bytes that the command port takes from a host. -/
def State.takeFrom (s : State) (host : Nat) (bytes : Bytes) : State :=
  { s with cmdPort := s.cmdPort ++ bytes, sender := host }

/-- What a host's act does to the state. Bytes of a host that the port does not listen to are not taken: the host has to send
them again (log 9). -/
def hostAct : HostAction → State → State
  | .send host bytes, s => if s.accepts host then s.takeFrom host bytes else s
  | .receive n, s => { s with respPort := s.respPort.drop n }
  | .reset, s => hardReset s

/-- The bytes a host gets by an act. -/
def hostReads : HostAction → State → Bytes
  | .send _ _, _ => []
  | .receive n, s => s.respPort.take n
  | .reset, _ => []

end Sys2Proof.Machine
end

