-- ==== Sys2Proof/Machine/Timing.lean ====
section
/-! DEFINITION. Latency parameters (70_reset_and_hazards.md R181, R183). No step depends on them: the model has no time. -/

namespace Sys2Proof.Machine

/-- The latency of a command: an open parameter of its opcode and operand lengths (R6, R181, R183, log 8). -/
def latency : Instr → Nat
  | .construct key nonce _ => Config.latConstruct key.length nonce.length
  | .resetSeq _ => Config.latResetSeq
  | .nextBlock => Config.latNextBlock
  | .encrypt src dst => Config.latEncrypt src.length dst.length
  | .decrypt src dst => Config.latDecrypt src.length dst.length

end Sys2Proof.Machine
end

