-- ==== Sys2Proof/Safety.lean ====
section
/-! DEFINITION. The terms the claims use: runs of the core with its hosts, the invariant of the constants, and what a host
can and cannot tell apart. -/

namespace Sys2Proof.Machine

/-- The states a core can be in: from reset, by steps of the core and acts of its hosts in any order, each host's
commands whole (R51, U7, log 9). -/
inductive Reachable : State → Prop where
  | reset : Reachable State.reset
  | step (s s' : State) : Reachable s → Sys2Proof.Machine.step s = .next s' → Reachable s'
  | host (s : State) (a : HostAction) : Reachable s → Reachable (hostAct a s)

/-- An instance has its constants (R21: "never mutated after construction"). -/
def ConstantsHeld (s : State) : Prop :=
  s.VALID = true →
    s.S[0] = 0x61707865 ∧ s.S[1] = 0x3320646e ∧ s.S[2] = 0x79622d32 ∧ s.S[3] = 0x6b206574

/-- Two states a host cannot tell apart: the same ports (and the same host listened to) and VALID, and the same S where there is an instance. KS (R30) and an
S that no CONSTRUCT has written (R34, R170) may differ. -/
def HostAlike (s t : State) : Prop :=
  s.VALID = t.VALID ∧ s.cmdPort = t.cmdPort ∧ s.sender = t.sender ∧ s.respPort = t.respPort ∧ (s.VALID = true → s.S = t.S)

/-- Commands executed one after the other (R50), at the abstract level of R60; it stops where one does. -/
def runCommands : List Instr → State → Result
  | [], s => .next s
  | i :: later, s =>
    match exec i s with
    | .next s' => runCommands later s'
    | .fault r => .fault r
    | .refused r => .refused r

/-- Steps one after the other; it stops where one does. -/
def steps : Nat → State → Result
  | 0, s => .next s
  | n + 1, s =>
    match step s with
    | .next s' => steps n s'
    | .fault r => .fault r
    | .refused r => .refused r

/-- Hosts deliver bytes one after the other. -/
def sendAll (sends : List (Nat × Bytes)) (s : State) : State :=
  sends.foldl (fun t d => hostAct (.send d.1 d.2) t) s

/-- The bytes are one frame, of a command or of an illegal header (R69, R70), with nothing after it. -/
def IsFrame (bytes : Bytes) : Prop := dropFrame bytes = some []

/-- What one host has of a list of pieces, in order. -/
def piecesOf (host : Nat) (pieces : List (Nat × Bytes)) : Bytes :=
  (pieces.filter fun p => p.1 == host).flatMap (·.2)

/-- `Heard taken s`: a run from an empty command port (a reset leaves one) has come to `s`, and `taken` are the deliveries
that the port took in it, each with its host. The core may step and hosts may act at any time in any order (R51). -/
inductive Heard : List (Nat × Bytes) → State → Prop where
  | start (s : State) : s.cmdPort = [] → Heard [] s
  | step {taken : List (Nat × Bytes)} {s s' : State} : Heard taken s → Sys2Proof.Machine.step s = .next s' → Heard taken s'
  | send {taken : List (Nat × Bytes)} {s : State} (host : Nat) (bytes : Bytes) : Heard taken s →
      Heard (if s.accepts host then taken ++ [(host, bytes)] else taken) (hostAct (.send host bytes) s)
  | receive {taken : List (Nat × Bytes)} {s : State} (n : Nat) : Heard taken s → Heard taken (hostAct (.receive n) s)

/-- The command builds an instance: a CONSTRUCT whose operands are long enough (R81). -/
def Constructs : Instr → Prop
  | .construct key nonce _ => 32 ≤ key.length ∧ 12 ≤ nonce.length
  | .resetSeq _ => False
  | .nextBlock => False
  | .encrypt _ _ => False
  | .decrypt _ _ => False

/-- The command is a CONSTRUCT, of whatever operands. -/
def IsConstruct : Instr → Prop
  | .construct _ _ _ => True
  | .resetSeq _ => False
  | .nextBlock => False
  | .encrypt _ _ => False
  | .decrypt _ _ => False

end Sys2Proof.Machine
end

