-- ==== Sys2Proof/Certificates/Slice0/Obligations.lean ====
section
/-! DEFINITION. The statements for the provers. A response is written out as the bytes of its code (R150) and its payload; a
next state is written as the old one with the fields it changes. -/

open Sys2Proof Sys2Proof.Machine

/-! ### Reset and invariants -/

/-- R34, R170, R171: reset, at power-on and of a running core, leaves no instance, no partial frame and no undelivered
response, and the core waits for a frame. What S and KS hold is not said: the spec gives no value (log 3, log 5). -/
def Obligations.ResetLeavesIdleCoreWithoutInstance : Prop :=
  (State.reset.VALID = false ∧ State.reset.cmdPort = [] ∧ State.reset.respPort = [] ∧
    step State.reset = .fault .awaitingFrame) ∧
  ∀ s : State, (hostAct .reset s).VALID = false ∧ (hostAct .reset s).cmdPort = [] ∧
    (hostAct .reset s).respPort = [] ∧ step (hostAct .reset s) = .fault .awaitingFrame

/-- The invariant of StepsKeepTheConstants holds at reset and after any later reset. -/
def Obligations.ResetMeetsConstantsInvariant : Prop :=
  ConstantsHeld State.reset ∧ ∀ s : State, ConstantsHeld (hostAct .reset s)

/-- R21: an instance's words S[0..3] are the constants, through every step and every act of a host. -/
def Obligations.StepsKeepTheConstants : Prop :=
  ∀ s : State, ConstantsHeld s →
    (∀ s', step s = .next s' → ConstantsHeld s') ∧ (∀ a, ConstantsHeld (hostAct a s))

/-- R21: in every state a run can reach, by steps and acts of hosts in any order, an instance has its constants. -/
def Obligations.ReachableInstancesHaveTheirConstants : Prop :=
  ∀ s : State, Reachable s → ConstantsHeld s

/-- R170, R171: after a reset the decoder starts at a frame boundary, whatever piece of a frame had arrived before it. -/
def Obligations.ResetDiscardsPartialFrame : Prop :=
  ∀ (s : State) (host host' : Nat) (piece : Bytes) (i : Instr), i.wellFormed = true →
    step (hostAct (.send host' (encode i)) (hostAct .reset (hostAct (.send host piece) s))) =
      exec i { hostAct .reset (hostAct (.send host piece) s) with sender := host' }

/-! ### Frames -/

/-- Decoding the frame of a command gives the command back, with every operand at every value, and leaves what follows. -/
def Obligations.DecodeOfEncodeIsTheCommand : Prop :=
  ∀ (i : Instr) (rest : Bytes), i.wellFormed = true → decode (encode i ++ rest) = .command i rest

/-- The other direction: a stream that decodes to a command is that command's frame and what follows it, and the command is
well-formed. No other bytes mean the same command. -/
def Obligations.DecodedStreamIsTheEncoding : Prop :=
  ∀ (stream : Bytes) (i : Instr) (rest : Bytes), decode stream = .command i rest →
    i.wellFormed = true ∧ stream = encode i ++ rest

/-- R69, R153: the five legal header words, and what every other one does. -/
def Obligations.IllegalHeaderAnsweredAndConsumesFourBytes : Prop :=
  ∀ (h : Word) (rest : Bytes) (s : State),
    let legal := h = 0x00000001 ∨ h = 0x00000002 ∨ h = 0x00000003 ∨ h = 0x00000004 ∨ h = 0x00000005
    (legal ↔ headerRES h = 0 ∧ 1 ≤ (headerOP h).toNat ∧ (headerOP h).toNat ≤ 5) ∧
    (legal → ∀ h' rest', decode (bytesLe32 h ++ rest) ≠ .illegal h' rest') ∧
    (¬ legal →
      decode (bytesLe32 h ++ rest) = .illegal h rest ∧
      step { s with cmdPort := bytesLe32 h ++ rest } =
        .next { s with cmdPort := rest, respPort := s.respPort ++ bytesLe32 3 })

/-- R71: a frame cut short anywhere is not executed; when the missing bytes arrive the command runs. That the core has no step
on it is the fault `awaitingFrame`, the model's rendering of R71's "stuck core, not as an error" (DEDUCED, log 2). The host
that sends the missing bytes is the one whose frame it is; another is not listened to (log 9). -/
def Obligations.CutShortFrameWaitsForItsBytes : Prop :=
  ∀ (i : Instr) (piece missing : Bytes) (s : State), i.wellFormed = true → encode i = piece ++ missing → missing ≠ [] →
    decode piece = .hold ∧
    step { s with cmdPort := piece } = .fault .awaitingFrame ∧
    step (hostAct (.send s.sender missing) { s with cmdPort := piece }) = exec i { s with cmdPort := [] }

/-- R60, R70, R178: a step runs the command decoded from the front of the command port, with its frame consumed. -/
def Obligations.StepRunsTheDecodedCommand : Prop :=
  ∀ (s : State) (i : Instr) (rest : Bytes), decode s.cmdPort = .command i rest →
    step s = exec i { s with cmdPort := rest }

/-- R74: the frames of the sample commands. -/
def Obligations.SampleFramesAssembleAndDecode : Prop :=
  (assemble .nextBlock = [0x03, 0x00, 0x00, 0x00] ∧ decode [0x03, 0x00, 0x00, 0x00] = .command .nextBlock []) ∧
  (assemble (.resetSeq 0x0000000100000002) =
      [0x02, 0x00, 0x00, 0x00, 0x02, 0x00, 0x00, 0x00, 0x01, 0x00, 0x00, 0x00] ∧
    decode [0x02, 0x00, 0x00, 0x00, 0x02, 0x00, 0x00, 0x00, 0x01, 0x00, 0x00, 0x00] =
      .command (.resetSeq 0x0000000100000002) []) ∧
  (let frame : Bytes :=
      [0x01, 0x00, 0x00, 0x00, 0x20, 0x00, 0x00, 0x00,
       0x00, 0x01, 0x02, 0x03, 0x04, 0x05, 0x06, 0x07, 0x08, 0x09, 0x0a, 0x0b, 0x0c, 0x0d, 0x0e, 0x0f,
       0x10, 0x11, 0x12, 0x13, 0x14, 0x15, 0x16, 0x17, 0x18, 0x19, 0x1a, 0x1b, 0x1c, 0x1d, 0x1e, 0x1f,
       0x0c, 0x00, 0x00, 0x00, 0x00, 0x00, 0x00, 0x09, 0x00, 0x00, 0x00, 0x4a, 0x00, 0x00, 0x00, 0x00,
       0x01, 0x00, 0x00, 0x00]
    let nonce : Bytes := [0x00, 0x00, 0x00, 0x09, 0x00, 0x00, 0x00, 0x4a, 0x00, 0x00, 0x00, 0x00]
    frame.length = 60 ∧ assemble (.construct (ascendingBytes 0x00 0x1f) nonce 1) = frame ∧
    decode frame = .command (.construct (ascendingBytes 0x00 0x1f) nonce 1) []) ∧
  (assemble (.encrypt [0x41, 0x42] (zeros 3)) =
      [0x04, 0x00, 0x00, 0x00, 0x02, 0x00, 0x00, 0x00, 0x41, 0x42, 0x03, 0x00, 0x00, 0x00, 0x00, 0x00, 0x00] ∧
    decode [0x04, 0x00, 0x00, 0x00, 0x02, 0x00, 0x00, 0x00, 0x41, 0x42, 0x03, 0x00, 0x00, 0x00, 0x00, 0x00, 0x00] =
      .command (.encrypt [0x41, 0x42] [0x00, 0x00, 0x00]) []) ∧
  (assemble (.decrypt [] []) = [0x05, 0x00, 0x00, 0x00, 0x00, 0x00, 0x00, 0x00, 0x00, 0x00, 0x00, 0x00] ∧
    decode [0x05, 0x00, 0x00, 0x00, 0x00, 0x00, 0x00, 0x00, 0x00, 0x00, 0x00, 0x00] = .command (.decrypt [] []) []) ∧
  (assemble (.word 0x00000014) = [0x14, 0x00, 0x00, 0x00] ∧
    decode [0x14, 0x00, 0x00, 0x00] = .illegal 0x00000014 [])

/-- The words of the opcode table, with operand words of zeros, are the commands of the table and run as the next command
(R62; how a program comes to run is the model's choice, log 13). -/
def Obligations.TableWordsRunAsTheirCommands : Prop :=
  (decodeTableWord 32 1 = some (.construct [] [] 0) ∧ decodeTableWord 32 2 = some (.resetSeq 0) ∧
    decodeTableWord 32 3 = some .nextBlock ∧ decodeTableWord 32 4 = some (.encrypt [] []) ∧
    decodeTableWord 32 5 = some (.decrypt [] [])) ∧
  ∀ s : State,
    step (s.withFetchWord 32 1) = exec (.construct [] [] 0) s ∧ step (s.withFetchWord 32 2) = exec (.resetSeq 0) s ∧
    step (s.withFetchWord 32 3) = exec .nextBlock s ∧ step (s.withFetchWord 32 4) = exec (.encrypt [] []) s ∧
    step (s.withFetchWord 32 5) = exec (.decrypt [] []) s

/-! ### Steps and responses -/

/-- R50, R177: frames that arrived together are executed one after the other in arrival order, the second in the state the
first left, and the responses stand in the same order. -/
def Obligations.QueuedFramesServedInArrivalOrder : Prop :=
  ∀ (i j : Instr) (rest : Bytes) (s : State), i.wellFormed = true → j.wellFormed = true →
    ∃ t u r₁ r₂,
      step { s with cmdPort := encode i ++ encode j ++ rest } = .next t ∧
      exec i { s with cmdPort := encode j ++ rest } = .next t ∧ t.respPort = s.respPort ++ r₁ ∧
      step t = .next u ∧ exec j { t with cmdPort := rest } = .next u ∧ u.respPort = s.respPort ++ r₁ ++ r₂ ∧
      r₁ ≠ [] ∧ r₂ ≠ []

/-- R182: a complete frame always gets its response and is consumed; no command hangs, faults or refuses. -/
def Obligations.CompleteFrameAlwaysAnswered : Prop :=
  ∀ (s : State) (i : Instr) (rest : Bytes), decode s.cmdPort = .command i rest →
    ∃ t code payload, step s = .next t ∧ t.cmdPort = rest ∧ t.respPort = s.respPort ++ (bytesLe32 (respCodeValue code) ++ payload)

/-- R151: a step that answers an error code writes nothing to S, KS or VALID, and its response is the code alone. -/
def Obligations.ErrorsLeaveTheInstanceUnchanged : Prop :=
  ∀ s t : State, step s = .next t →
    ∃ code payload, t.respPort = s.respPort ++ (bytesLe32 (respCodeValue code) ++ payload) ∧
      (code ≠ .ok → payload = [] ∧ t.S = s.S ∧ t.KS = s.KS ∧ t.VALID = s.VALID ∧ t.draw = s.draw)

/-- R68: exactly one response frame a command, and its payload by command. -/
def Obligations.ResponseFrameLayout : Prop :=
  ∀ (i : Instr) (s : State), ∃ t code payload, exec i s = .next t ∧
    t.respPort = s.respPort ++ (bytesLe32 (respCodeValue code) ++ payload) ∧
    (code ≠ .ok → payload = []) ∧
    (code = .ok →
      match i with
      | .construct _ _ _ => payload = []
      | .resetSeq _ => payload = []
      | .nextBlock => payload.length = 64
      | .encrypt src dst => ∃ out, payload = bytesLe32 (BitVec.ofNat 32 src.length) ++ out ∧ out.length = dst.length
      | .decrypt src dst => ∃ out, payload = bytesLe32 (BitVec.ofNat 32 src.length) ++ out ∧ out.length = dst.length)

/-- R150: the five codes and their numbers, which are distinct, and no command or illegal header is ever answered with any
other number: the first word of what a step adds to the response port is one of the five. -/
def Obligations.OnlyTheFiveResponseCodesAreSent : Prop :=
  (respCodeValue .ok = 0 ∧ respCodeValue .configurationError = 1 ∧ respCodeValue .bufferSizeError = 2 ∧
    respCodeValue .illegalCommand = 3 ∧ respCodeValue .notConfigured = 4) ∧
  ∀ s t : State, step s = .next t → ∃ added, t.respPort = s.respPort ++ added ∧ 4 ≤ added.length ∧
    (le32 added 0).toNat ≤ 4

/-- R156: the first error that applies, in the order illegal header, no instance, operand check, is the one reported, and
CONSTRUCT never answers NotConfigured. -/
def Obligations.ErrorPriorityOrder : Prop :=
  ∀ (s : State) (src dst key nonce : Bytes) (counter : Word),
    (∀ (h : Word) (rest : Bytes),
      ¬ (h = 0x00000001 ∨ h = 0x00000002 ∨ h = 0x00000003 ∨ h = 0x00000004 ∨ h = 0x00000005) →
      step { s with cmdPort := bytesLe32 h ++ rest } =
        .next { s with cmdPort := rest, respPort := s.respPort ++ bytesLe32 3 }) ∧
    (s.VALID = false →
      exec (.encrypt src dst) s = .next { s with respPort := s.respPort ++ bytesLe32 4 } ∧
      exec (.decrypt src dst) s = .next { s with respPort := s.respPort ++ bytesLe32 4 }) ∧
    (s.VALID = true → dst.length < src.length →
      exec (.encrypt src dst) s = .next { s with respPort := s.respPort ++ bytesLe32 2 } ∧
      exec (.decrypt src dst) s = .next { s with respPort := s.respPort ++ bytesLe32 2 }) ∧
    (key.length < 32 ∨ nonce.length < 12 →
      exec (.construct key nonce counter) s = .next { s with respPort := s.respPort ++ bytesLe32 1 }) ∧
    (32 ≤ key.length → 12 ≤ nonce.length →
      ∃ t, exec (.construct key nonce counter) s = .next t ∧ t.respPort = s.respPort ++ bytesLe32 0)

/-- R25: which words of S each command writes. -/
def Obligations.WritersOfTheStateWords : Prop :=
  ∀ (i : Instr) (s : State), ∃ t code payload, exec i s = .next t ∧
    t.respPort = s.respPort ++ (bytesLe32 (respCodeValue code) ++ payload) ∧
    (code ≠ .ok → t.S = s.S) ∧
    (code = .ok →
      match i with
      | .construct key nonce counter =>
        t.S[0] = 0x61707865 ∧ t.S[1] = 0x3320646e ∧ t.S[2] = 0x79622d32 ∧ t.S[3] = 0x6b206574 ∧
        (∀ (k : Nat) (_ : k < 8), t.S[4 + k] = le32 key (4 * k)) ∧ t.S[12] = counter ∧
        (∀ (k : Nat) (_ : k < 3), t.S[13 + k] = le32 nonce (4 * k))
      | .resetSeq seq =>
        (∀ (j : Nat) (_ : j < 16), j ≠ 12 → j ≠ 14 → j ≠ 15 → t.S[j] = s.S[j]) ∧
        t.S[12] = 1 ∧ t.S[14] = seq.extractLsb' 0 32 ∧ t.S[15] = seq.extractLsb' 32 32
      | .nextBlock =>
        (∀ (j : Nat) (_ : j < 16), j ≠ 12 → t.S[j] = s.S[j]) ∧ t.S[12] = s.S[12] + 1
      | .encrypt src _ =>
        (∀ (j : Nat) (_ : j < 16), j ≠ 12 → t.S[j] = s.S[j]) ∧
        t.S[12] = s.S[12] + BitVec.ofNat 32 ((src.length + 63) / 64)
      | .decrypt src _ =>
        (∀ (j : Nat) (_ : j < 16), j ≠ 12 → t.S[j] = s.S[j]) ∧
        t.S[12] = s.S[12] + BitVec.ofNat 32 ((src.length + 63) / 64))

/-- R27: only a successful CONSTRUCT sets VALID, only reset clears it, and the other four commands read it first. -/
def Obligations.OnlyConstructSetsAndOnlyResetClearsVALID : Prop :=
  (∀ (i : Instr) (s t : State), exec i s = .next t → (t.VALID = true ↔ s.VALID = true ∨ Constructs i)) ∧
  (∀ s t : State, step s = .next t → s.VALID = true → t.VALID = true) ∧
  (∀ (s : State) (host : Nat) (bytes : Bytes) (n : Nat), (hostAct (.send host bytes) s).VALID = s.VALID ∧
    (hostAct (.receive n) s).VALID = s.VALID ∧ (hostAct .reset s).VALID = false) ∧
  (∀ (i : Instr) (s : State), s.VALID = false → ¬ IsConstruct i →
    exec i s = .next { s with respPort := s.respPort ++ bytesLe32 4 })

/-! ### CONSTRUCT and RESET_SEQ -/

/-- R82, R81, R84, R85, R154: CONSTRUCT, in every state. Short operands change nothing; otherwise every word of S is written
from the operands, KS is not written, and VALID is set. -/
def Obligations.ConstructBuildsTheInstanceOrChangesNothing : Prop :=
  ∀ (key nonce : Bytes) (counter : Word) (s : State),
    (key.length < 32 ∨ nonce.length < 12 →
      exec (.construct key nonce counter) s = .next { s with respPort := s.respPort ++ bytesLe32 1 }) ∧
    (32 ≤ key.length → 12 ≤ nonce.length →
      ∃ words : Vector Word 16,
        exec (.construct key nonce counter) s =
          .next { s with S := words, VALID := true, respPort := s.respPort ++ bytesLe32 0 } ∧
        words[0] = 0x61707865 ∧ words[1] = 0x3320646e ∧ words[2] = 0x79622d32 ∧ words[3] = 0x6b206574 ∧
        (∀ (k : Nat) (_ : k < 8), words[4 + k] = le32 key (4 * k)) ∧ words[12] = counter ∧
        (∀ (k : Nat) (_ : k < 3), words[13 + k] = le32 nonce (4 * k)))

/-- R42, R43: key and nonce bytes enter the words least significant byte first. -/
def Obligations.KeyAndNonceBytesAreLittleEndian : Prop :=
  ∀ (key nonce : Bytes) (counter : Word) (s : State), 32 ≤ key.length → 12 ≤ nonce.length →
    ∃ t, exec (.construct key nonce counter) s = .next t ∧
      (∀ (k : Nat) (_ : k < 8), t.S[4 + k] = le32 key (4 * k) ∧
        ∀ m < 4, key[4 * k + m]? = some (t.S[4 + k].extractLsb' (8 * m) 8)) ∧
      (∀ (k : Nat) (_ : k < 3), t.S[13 + k] = le32 nonce (4 * k) ∧
        ∀ m < 4, nonce[4 * k + m]? = some (t.S[13 + k].extractLsb' (8 * m) 8))

/-- R83 (for the key the spec's own decision D12): longer operands are accepted, and their bytes past 31 and past 11 have no
effect. -/
def Obligations.ConstructIgnoresBytesPastKeyAndNonce : Prop :=
  ∀ (key nonce keyTail nonceTail : Bytes) (counter : Word) (s : State), key.length = 32 → nonce.length = 12 →
    exec (.construct (key ++ keyTail) (nonce ++ nonceTail) counter) s = exec (.construct key nonce counter) s ∧
    ∃ t, exec (.construct (key ++ keyTail) (nonce ++ nonceTail) counter) s = .next t ∧ t.VALID = true ∧
      t.respPort = s.respPort ++ bytesLe32 0

/-- R86, R87: RESET_SEQ writes S[12], S[14] and S[15] and nothing else, S[13] least of all; without an instance it changes
nothing. -/
def Obligations.ResetSeqWritesCounterAndLastNonceWords : Prop :=
  ∀ (seq : Word64) (s : State),
    (s.VALID = true →
      ∃ words : Vector Word 16,
        exec (.resetSeq seq) s = .next { s with S := words, respPort := s.respPort ++ bytesLe32 0 } ∧
        words[12] = 0x00000001 ∧ words[14] = seq.extractLsb' 0 32 ∧ words[15] = seq.extractLsb' 32 32 ∧
        ∀ (j : Nat) (_ : j < 16), j ≠ 12 → j ≠ 14 → j ≠ 15 → words[j] = s.S[j]) ∧
    (s.VALID = false → exec (.resetSeq seq) s = .next { s with respPort := s.respPort ++ bytesLe32 4 })

/-- R88: the nonce bytes RESET_SEQ leaves are the little-endian bytes of the sequence number. -/
def Obligations.ResetSeqNonceBytesAreTheSequenceNumber : Prop :=
  ∀ (seq : Word64) (s : State), s.VALID = true →
    ∃ t, exec (.resetSeq seq) s = .next t ∧ t.S[14] = seq.extractLsb' 0 32 ∧ t.S[15] = seq.extractLsb' 32 32 ∧
      bytesLe32 t.S[14] ++ bytesLe32 t.S[15] = bytesLe64 seq

/-- R152: without an instance RESET_SEQ, NEXT_BLOCK, ENCRYPT and DECRYPT answer NotConfigured and change nothing. -/
def Obligations.CommandsBeforeConstructAnswerNotConfigured : Prop :=
  ∀ (s : State) (seq : Word64) (src dst : Bytes), s.VALID = false →
    exec (.resetSeq seq) s = .next { s with respPort := s.respPort ++ bytesLe32 4 } ∧
    exec .nextBlock s = .next { s with respPort := s.respPort ++ bytesLe32 4 } ∧
    exec (.encrypt src dst) s = .next { s with respPort := s.respPort ++ bytesLe32 4 } ∧
    exec (.decrypt src dst) s = .next { s with respPort := s.respPort ++ bytesLe32 4 }

/-- R22, R24, R87: any run of commands without a CONSTRUCT completes and keeps S[0..11] and S[13]. -/
def Obligations.RunsWithoutConstructKeepKeyAndFirstNonceWord : Prop :=
  ∀ (commands : List Instr) (s : State), (∀ i ∈ commands, ¬ IsConstruct i) →
    ∃ t, runCommands commands s = .next t ∧ t.VALID = s.VALID ∧ t.S[13] = s.S[13] ∧
      ∀ (j : Nat) (_ : j < 12), t.S[j] = s.S[j]

/-- R176: a RESET_SEQ with a sequence number already used restores the words S had after its first use, whatever was done in
between short of a CONSTRUCT, and what any further commands answer is then the same as before. -/
def Obligations.RepeatedSequenceNumberRepeatsTheKeystream : Prop :=
  ∀ (seq : Word64) (between later : List Instr) (s : State), s.VALID = true → (∀ i ∈ between, ¬ IsConstruct i) →
    ∃ a b c a' c' out, exec (.resetSeq seq) s = .next a ∧ runCommands between a = .next b ∧
      exec (.resetSeq seq) b = .next c ∧ c.S = a.S ∧
      runCommands later a = .next a' ∧ a'.respPort = a.respPort ++ out ∧
      runCommands later c = .next c' ∧ c'.respPort = c.respPort ++ out

/-! ### The block transform and NEXT_BLOCK -/

/-- R100, R9: the twelve steps of the quarter-round in exactly their order, with wrapping addition and circular rotation (the
library's `rotateLeft`). -/
def Obligations.QuarterRoundStepsInOrder : Prop :=
  ∀ a b c d : Word,
    let a₁ := a + b; let d₁ := (d ^^^ a₁).rotateLeft 16
    let c₁ := c + d₁; let b₁ := (b ^^^ c₁).rotateLeft 12
    let a₂ := a₁ + b₁; let d₂ := (d₁ ^^^ a₂).rotateLeft 8
    let c₂ := c₁ + d₂; let b₂ := (b₁ ^^^ c₂).rotateLeft 7
    QR a b c d = (a₂, b₂, c₂, d₂)

/-- R101: the quarter-round is a bijection on four-word tuples, and its worked values. -/
def Obligations.QuarterRoundIsBijective : Prop :=
  Function.Bijective (fun w : Word × Word × Word × Word => QR w.1 w.2.1 w.2.2.1 w.2.2.2) ∧
  QR 0x11111111 0x01020304 0x9b8d6f43 0x01234567 = (0xea2a92f4, 0xcb1cf8ce, 0x4581472e, 0x5881c4bb) ∧
  QR 0x00000000 0x00000000 0x00000000 0x00000000 = (0x00000000, 0x00000000, 0x00000000, 0x00000000) ∧
  QR 0x00000001 0x00000000 0x00000000 0x00000000 = (0x10000001, 0x80808808, 0x01010110, 0x01000110) ∧
  QR 0xffffffff 0xffffffff 0xffffffff 0xffffffff = (0xf0000ffd, 0x88790878, 0x0110fdef, 0x010ffdf0)

/-- R103, with R102's picture of the grid: the column round is the quarter-round on each grid column, the diagonal round the
quarter-round on each wrapping diagonal of what the columns left, and within a round the order does not matter. -/
def Obligations.DoubleRoundOnTheGrid : Prop :=
  (∀ (W : Vector Word 16) (j : Nat) (_ : j < 4),
    let V := applyGroups columnGroups W
    (V[j], V[j + 4], V[j + 8], V[j + 12]) = QR W[j] W[j + 4] W[j + 8] W[j + 12] ∧
    ((DR W)[j], (DR W)[4 + (j + 1) % 4], (DR W)[8 + (j + 2) % 4], (DR W)[12 + (j + 3) % 4]) =
      QR V[j] V[4 + (j + 1) % 4] V[8 + (j + 2) % 4] V[12 + (j + 3) % 4]) ∧
  (∀ (W : Vector Word 16) (order : List Group), order.Perm columnGroups →
    applyGroups order W = applyGroups columnGroups W) ∧
  (∀ (W : Vector Word 16) (order : List Group), order.Perm diagonalGroups →
    applyGroups order W = applyGroups diagonalGroups W)

/-- R104, R105, R44: the bytes of BLOCK are the bytes of the sixteen words of ten double rounds plus the original words, each
least significant byte first. -/
def Obligations.BlockIsTenDoubleRoundsPlusInput : Prop :=
  ∀ S : Vector Word 16,
    (BLOCK S).toList =
      (List.ofFn fun i : Fin 16 => ((DR^[10]) S)[i] + S[i]).flatMap bytesLe32 ∧
    ∀ (i m : Nat) (_ : i < 16) (_ : m < 4),
      (BLOCK S)[4 * i + m] = (((DR^[10]) S)[i] + S[i]).extractLsb' (8 * m) 8

/-- R108: `m` calls of the generator give the blocks of the counters c, c + 1, .., c + m - 1 modulo 2^32 and leave c + m. -/
def Obligations.GeneratorGivesConsecutiveBlocks : Prop :=
  ∀ (m : Nat) (S : Vector Word 16),
    GEN S = (BLOCK S, S.set 12 (S[12] + 1)) ∧
    (GENs m S).1 = (List.range m).map (fun k => BLOCK (S.set 12 (S[12] + BitVec.ofNat 32 k))) ∧
    (GENs m S).2 = S.set 12 (S[12] + BitVec.ofNat 32 m)

/-- R110, R106: NEXT_BLOCK answers the block of the present words, puts it in KS and advances the counter, silently past
0xFFFFFFFF; without an instance it changes nothing. -/
def Obligations.NextBlockAnswersBlockAndAdvancesCounter : Prop :=
  ∀ s : State,
    (s.VALID = true →
      exec .nextBlock s =
        .next { s with S := s.S.set 12 (s.S[12] + 1), KS := BLOCK s.S,
                       respPort := s.respPort ++ (bytesLe32 0 ++ (BLOCK s.S).toList) }) ∧
    (s.VALID = false → exec .nextBlock s = .next { s with respPort := s.respPort ++ bytesLe32 4 }) ∧
    (s.VALID = true → s.S[12] = 0xFFFFFFFF →
      ∃ t, exec .nextBlock s = .next t ∧ t.S[12] = 0x00000000 ∧ t.S[13] = s.S[13] ∧
        ∃ u, exec .nextBlock t = .next u ∧ u.KS = BLOCK (s.S.set 12 0))

/-- R111: a NEXT_BLOCK before a call makes the call start one block later than it would have without it. -/
def Obligations.NextBlockUsesUpOneCounterValue : Prop :=
  ∀ (src dst : Bytes) (s : State), s.VALID = true → src.length ≤ dst.length →
    ∃ t u out, exec .nextBlock s = .next t ∧ exec (.encrypt src dst) t = .next u ∧
      u.respPort = t.respPort ++ (bytesLe32 0 ++ bytesLe32 (BitVec.ofNat 32 src.length) ++ out) ∧
      u.S[12] = s.S[12] + 1 + BitVec.ofNat 32 ((src.length + 63) / 64) ∧
      ∀ (k : Nat) (_ : k < src.length),
        out[k]? = some (src[k] ^^^ (BLOCK (s.S.set 12 (s.S[12] + 1 + BitVec.ofNat 32 (k / 64))))[k % 64])

/-! ### ENCRYPT and DECRYPT -/

/-- R137, R135, R29: the closed form of what ENCRYPT and DECRYPT answer and leave, for every source and every destination
long enough. That KS holds the whole last block, its tail too after a partial one, is what R29 and R130 say where U3 allows any
value (DEDUCED, log 6). -/
def Obligations.StreamXorClosedForm : Prop :=
  ∀ (src dst : Bytes) (s : State), s.VALID = true → src.length ≤ dst.length →
    ∃ (out : Bytes) (t : State),
      exec (.encrypt src dst) s = .next t ∧ exec (.decrypt src dst) s = .next t ∧
      t = { s with
            S := s.S.set 12 (s.S[12] + BitVec.ofNat 32 ((src.length + 63) / 64)),
            KS := if src = [] then s.KS
                  else BLOCK (s.S.set 12 (s.S[12] + BitVec.ofNat 32 ((src.length - 1) / 64))),
            respPort := s.respPort ++ (bytesLe32 0 ++ bytesLe32 (BitVec.ofNat 32 src.length) ++ out) } ∧
      out.length = dst.length ∧
      (∀ (k : Nat) (_ : k < src.length),
        out[k]? = some (src[k] ^^^ (BLOCK (s.S.set 12 (s.S[12] + BitVec.ofNat 32 (k / 64))))[k % 64])) ∧
      (∀ k, src.length ≤ k → out[k]? = dst[k]?) ∧
      (src.length < 2 ^ 32 → (src.length + 63) / 64 ≤ 2 ^ 26)

/-- R132: DECRYPT is ENCRYPT but for its header. -/
def Obligations.DecryptDiffersFromEncryptInHeaderOnly : Prop :=
  ∀ (src dst : Bytes) (s : State),
    exec (.decrypt src dst) s = exec (.encrypt src dst) s ∧
    encode (.encrypt src dst) = [0x04, 0x00, 0x00, 0x00] ++ (encode (.encrypt src dst)).drop 4 ∧
    encode (.decrypt src dst) = [0x05, 0x00, 0x00, 0x00] ++ (encode (.encrypt src dst)).drop 4

/-- R136, R155: a destination shorter than the source is refused before any block is produced, in an instance, and equal
lengths pass the check. -/
def Obligations.ShortDestinationRefusedBeforeAnyBlock : Prop :=
  ∀ (src dst : Bytes) (s : State), s.VALID = true →
    (dst.length < src.length →
      exec (.encrypt src dst) s = .next { s with respPort := s.respPort ++ bytesLe32 2 } ∧
      exec (.decrypt src dst) s = .next { s with respPort := s.respPort ++ bytesLe32 2 }) ∧
    (dst.length = src.length →
      ∃ t payload, exec (.encrypt src dst) s = .next t ∧ exec (.decrypt src dst) s = .next t ∧
        t.respPort = s.respPort ++ (bytesLe32 0 ++ payload))

/-- R138: a zero-length call writes no byte, leaves the counter and KS, and answers WRITTEN = 0 with the destination; without
an instance it answers NotConfigured. -/
def Obligations.ZeroLengthCallChangesNothing : Prop :=
  ∀ (dst : Bytes) (s : State),
    (s.VALID = true →
      exec (.encrypt [] dst) s = .next { s with respPort := s.respPort ++ (bytesLe32 0 ++ bytesLe32 0 ++ dst) } ∧
      exec (.decrypt [] dst) s = .next { s with respPort := s.respPort ++ (bytesLe32 0 ++ bytesLe32 0 ++ dst) }) ∧
    (s.VALID = false →
      exec (.encrypt [] dst) s = .next { s with respPort := s.respPort ++ bytesLe32 4 } ∧
      exec (.decrypt [] dst) s = .next { s with respPort := s.respPort ++ bytesLe32 4 })

/-- R133: decrypting ENCRYPT's output from a state with the same words of S gives the plaintext back and the same final S, and
from such states ENCRYPT and DECRYPT of the same bytes give the same output. -/
def Obligations.DecryptUndoesEncrypt : Prop :=
  ∀ (p dst dst' : Bytes) (s t : State), s.VALID = true → t.VALID = true → s.S = t.S →
    p.length ≤ dst.length → p.length ≤ dst'.length →
    ∃ c q s' t' u, exec (.encrypt p dst) s = .next s' ∧
      s'.respPort = s.respPort ++ (bytesLe32 0 ++ bytesLe32 (BitVec.ofNat 32 p.length) ++ c) ∧
      exec (.decrypt (c.take p.length) dst') t = .next t' ∧
      t'.respPort = t.respPort ++ (bytesLe32 0 ++ bytesLe32 (BitVec.ofNat 32 p.length) ++ q) ∧
      q.take p.length = p ∧ t'.S = s'.S ∧
      exec (.decrypt p dst) t = .next u ∧ u.S = s'.S ∧
      u.respPort = t.respPort ++ (bytesLe32 0 ++ bytesLe32 (BitVec.ofNat 32 p.length) ++ c)

/-- R134, R174: two calls are one call when the first ends on a block boundary or the second is empty. -/
def Obligations.SplitCallsJoinAtBlockBoundary : Prop :=
  ∀ (p₁ p₂ d₁ d₂ : Bytes) (s : State), s.VALID = true → d₁.length = p₁.length → d₂.length = p₂.length →
    p₁.length % 64 = 0 ∨ p₂ = [] →
    ∃ out₁ out₂ t u v,
      exec (.encrypt p₁ d₁) s = .next t ∧
      t.respPort = s.respPort ++ (bytesLe32 0 ++ bytesLe32 (BitVec.ofNat 32 p₁.length) ++ out₁) ∧
      exec (.encrypt p₂ d₂) t = .next u ∧
      u.respPort = t.respPort ++ (bytesLe32 0 ++ bytesLe32 (BitVec.ofNat 32 p₂.length) ++ out₂) ∧
      exec (.encrypt (p₁ ++ p₂) (d₁ ++ d₂)) s = .next v ∧
      v.respPort = s.respPort ++ (bytesLe32 0 ++ bytesLe32 (BitVec.ofNat 32 (p₁.length + p₂.length)) ++ (out₁ ++ out₂)) ∧
      u.S = v.S

/-- R134, R174: when the first call ends inside a block, the second starts a fresh one: its first byte is XORed with byte 0 of
block c + ceil(n1/64), where the single call uses byte n1 mod 64 of block c + floor(n1/64), and the counter advances by the
sum of the two ceilings. -/
def Obligations.SplitCallsInsideABlockDrawAFreshBlock : Prop :=
  ∀ (p₁ p₂ d₁ d₂ : Bytes) (b : Byte) (s : State), s.VALID = true → d₁.length = p₁.length →
    d₂.length = (b :: p₂).length → p₁.length % 64 ≠ 0 →
    ∃ out₁ out₂ out t u v,
      exec (.encrypt p₁ d₁) s = .next t ∧
      t.respPort = s.respPort ++ (bytesLe32 0 ++ bytesLe32 (BitVec.ofNat 32 p₁.length) ++ out₁) ∧
      exec (.encrypt (b :: p₂) d₂) t = .next u ∧
      u.respPort = t.respPort ++ (bytesLe32 0 ++ bytesLe32 (BitVec.ofNat 32 (p₂.length + 1)) ++ out₂) ∧
      exec (.encrypt (p₁ ++ b :: p₂) (d₁ ++ d₂)) s = .next v ∧
      v.respPort = s.respPort ++ (bytesLe32 0 ++ bytesLe32 (BitVec.ofNat 32 (p₁.length + p₂.length + 1)) ++ out) ∧
      out₂[0]? = some (b ^^^ (BLOCK (s.S.set 12 (s.S[12] + BitVec.ofNat 32 ((p₁.length + 63) / 64))))[0]) ∧
      out[p₁.length]? =
        some (b ^^^ (BLOCK (s.S.set 12 (s.S[12] + BitVec.ofNat 32 (p₁.length / 64))))[p₁.length % 64]) ∧
      u.S = s.S.set 12 (s.S[12] + BitVec.ofNat 32 ((p₁.length + 63) / 64 + (p₂.length + 1 + 63) / 64)) ∧
      v.S = s.S.set 12 (s.S[12] + BitVec.ofNat 32 ((p₁.length + p₂.length + 1 + 63) / 64))

/-- R73: what the two pseudo-instructions expand to and give. -/
def Obligations.PseudoInstructionsGiveKeystreamAndInPlaceXor : Prop :=
  (∀ n, assemble (.keystream n) = encode (.encrypt (zeros n) (zeros n))) ∧
  (∀ src, assemble (.xorInplace src) = encode (.encrypt src src)) ∧
  (∀ (n : Nat) (s : State), s.VALID = true →
    ∃ t out, exec (keystreamCommand n) s = .next t ∧ out.length = n ∧
      t.respPort = s.respPort ++ (bytesLe32 0 ++ bytesLe32 (BitVec.ofNat 32 n) ++ out) ∧
      ∀ k < n, out[k]? = some (BLOCK (s.S.set 12 (s.S[12] + BitVec.ofNat 32 (k / 64))))[k % 64]) ∧
  (∀ (src dst : Bytes) (s : State), s.VALID = true → dst.length = src.length →
    exec (xorInplaceCommand src) s = exec (.encrypt src dst) s ∧
    ∃ t out, exec (xorInplaceCommand src) s = .next t ∧ out.length = src.length ∧
      t.respPort = s.respPort ++ (bytesLe32 0 ++ bytesLe32 (BitVec.ofNat 32 src.length) ++ out) ∧
      ∀ (k : Nat) (_ : k < src.length),
        out[k]? = some (src[k] ^^^ (BLOCK (s.S.set 12 (s.S[12] + BitVec.ofNat 32 (k / 64))))[k % 64]))

/-! ### What a host can learn -/

/-- R30, R34, R170: nothing a host can see depends on KS, or on what S holds while there is no instance. Two cores that differ
only there step alike, stop alike, answer every act of a host alike, and go on differing only there. -/
def Obligations.HostNeverSeesKSOrUnwrittenS : Prop :=
  ∀ s t : State, HostAlike s t →
    (∀ s', step s = .next s' → ∃ t', step t = .next t' ∧ HostAlike s' t') ∧
    (∀ r, step s = .fault r → step t = .fault r) ∧
    (∀ a, HostAlike (hostAct a s) (hostAct a t) ∧ hostReads a s = hostReads a t)

/-- R139: after a CONSTRUCT with the same key, nonce and counter, the same commands give byte-identical answers and the same
words of S, whatever the core held before. -/
def Obligations.SameConstructionSameAnswers : Prop :=
  ∀ (key nonce : Bytes) (counter : Word) (commands : List Instr) (s t : State), 32 ≤ key.length → 12 ≤ nonce.length →
    ∃ s' t' out,
      runCommands (.construct key nonce counter :: commands) s = .next s' ∧
      runCommands (.construct key nonce counter :: commands) t = .next t' ∧
      s'.respPort = s.respPort ++ out ∧ t'.respPort = t.respPort ++ out ∧ s'.S = t'.S

/-- R183: latency depends on the opcode and the operand lengths, not on key, nonce, counter, sequence number or data. The form
of the latency parameters is the model's choice (log 8). -/
def Obligations.LatencyIgnoresSecretValues : Prop :=
  (∀ (key key' nonce nonce' : Bytes) (counter counter' : Word), key.length = key'.length → nonce.length = nonce'.length →
    latency (.construct key nonce counter) = latency (.construct key' nonce' counter')) ∧
  (∀ seq seq', latency (.resetSeq seq) = latency (.resetSeq seq')) ∧
  (∀ src src' dst dst' : Bytes, src.length = src'.length → dst.length = dst'.length →
    latency (.encrypt src dst) = latency (.encrypt src' dst') ∧
    latency (.decrypt src dst) = latency (.decrypt src' dst'))

/-! ### Several hosts on one command port -/

/-- R51, R179: "no interleaving inside a command". In any run from an empty command port, with any deliveries of any hosts and
steps between them, the bytes that the port took are whole frames, each of one host, and the unfinished frame of the host
listened to; every host's frames and unfinished frame are the bytes taken from it, in its order; the first frames have been
consumed, the others wait in order. That a delivery inside another host's frame is not taken is the model's choice (log 9). -/
def Obligations.NoFrameMixesTwoHostsBytes : Prop :=
  ∀ (taken : List (Nat × Bytes)) (s : State), Heard taken s →
    ∃ (frames : List (Nat × Bytes)) (consumed : Nat),
      (∀ f ∈ frames, IsFrame f.2) ∧ decode (unfinished s.cmdPort) = .hold ∧
      taken.flatMap (·.2) = frames.flatMap (·.2) ++ unfinished s.cmdPort ∧
      (∀ host, piecesOf host taken =
        piecesOf host frames ++ (if s.sender = host then unfinished s.cmdPort else [])) ∧
      consumed ≤ frames.length ∧
      s.cmdPort = (frames.drop consumed).flatMap (·.2) ++ unfinished s.cmdPort

/-- R51, R50, R179: "Any interleaving at command granularity is allowed". Whole commands of any hosts, in any order, are taken
and executed in that order, each in the state the one before it left. -/
def Obligations.WholeCommandsOfHostsServedInAnyOrder : Prop :=
  ∀ (commands : List (Nat × Instr)) (s : State), s.cmdPort = [] → (∀ c ∈ commands, c.2.wellFormed = true) →
    ∃ host t, steps commands.length (sendAll (commands.map fun c => (c.1, encode c.2)) s) = .next t ∧
      runCommands (commands.map (·.2)) { s with sender := host } = .next t

/-- R51, R71: while a host's frame is unfinished, bytes of another host are not taken (the model's choice of how, log 9); when
its missing bytes arrive the command runs whole, and then another host's bytes are taken, after the frame. -/
def Obligations.UnfinishedFrameHoldsThePort : Prop :=
  ∀ (i : Instr) (piece missing bytes : Bytes) (host other : Nat) (s : State), i.wellFormed = true →
    encode i = piece ++ missing → piece ≠ [] → missing ≠ [] → s.cmdPort = [] → other ≠ host →
    let t := hostAct (.send host piece) s
    t.cmdPort = piece ∧
    hostAct (.send other bytes) t = t ∧
    step (hostAct (.send host missing) t) = exec i { s with sender := host } ∧
    (hostAct (.send other bytes) (hostAct (.send host missing) t)).cmdPort = encode i ++ bytes
end

