-- ==== Sys2Proof/Laws/Frames.lean ====
section
/-! SUPPORT. Little-endian conversions undo each other, and reading a field off the front of a stream. -/

namespace Sys2Proof

/-! ### Conversions -/

@[simp] theorem bytesLe32_length (w : Word) : (bytesLe32 w).length = 4 := rfl
@[simp] theorem bytesLe64_length (q : Word64) : (bytesLe64 q).length = 8 := rfl
@[simp] theorem zeros_length (n : Nat) : (zeros n).length = n := List.length_replicate

/-- Byte `m` of a number that holds one byte at byte place `k`. -/
theorem extract_placed_byte {w : Nat} (b : Byte) (k m : Nat) (hm : 8 * m + 8 ≤ w) :
    (b.setWidth w <<< (8 * k)).extractLsb' (8 * m) 8 = if k = m then b else 0 := by
  ext j hj
  simp only [BitVec.getElem_extractLsb', BitVec.getLsbD_shiftLeft, BitVec.getLsbD_setWidth]
  rcases Nat.lt_trichotomy k m with h | h | h
  · simp only [if_neg (Nat.ne_of_lt h)]
    simp [BitVec.getLsbD_of_ge b _ (show 8 ≤ 8 * m + j - 8 * k by omega)]
  · subst h
    have e : 8 * k + j - 8 * k = j := by omega
    simp only [if_pos trivial, e, BitVec.getLsbD_eq_getElem hj]
    simp [show 8 * k + j < w by omega, show j < w by omega]
  · simp only [if_neg (Nat.ne_of_gt h)]
    simp [show 8 * m + j < 8 * k by omega]

/-- The same for the byte at place 0, which is not shifted. -/
theorem extract_low_byte {w : Nat} (b : Byte) (m : Nat) (hm : 8 * m + 8 ≤ w) :
    (b.setWidth w).extractLsb' (8 * m) 8 = if 0 = m then b else 0 := by
  simpa using extract_placed_byte b 0 m hm

/-- Byte `m` of `le32(b, i)` is `b[i + m]` (R11). -/
theorem le32_byte (b : Bytes) (i m : Nat) (hm : m < 4) :
    (le32 b i).extractLsb' (8 * m) 8 = b.getD (i + m) 0 := by
  have e8 := extract_placed_byte (w := 32) (b.getD (i + 1) 0) 1 m (by omega)
  have e16 := extract_placed_byte (w := 32) (b.getD (i + 2) 0) 2 m (by omega)
  have e24 := extract_placed_byte (w := 32) (b.getD (i + 3) 0) 3 m (by omega)
  simp only [le32, byteAt32, BitVec.extractLsb'_or, extract_low_byte _ m (show 8 * m + 8 ≤ 32 by omega)]
  simp only [Nat.reduceMul] at e8 e16 e24
  rw [e8, e16, e24]
  obtain rfl | rfl | rfl | rfl : m = 0 ∨ m = 1 ∨ m = 2 ∨ m = 3 := by omega
  all_goals simp

/-- Byte `m` of `le64(b, i)` is `b[i + m]` (R11). -/
theorem le64_byte (b : Bytes) (i m : Nat) (hm : m < 8) :
    (le64 b i).extractLsb' (8 * m) 8 = b.getD (i + m) 0 := by
  have e (k : Nat) := extract_placed_byte (w := 64) (b.getD (i + k) 0) k m (by omega)
  have e1 := e 1; have e2 := e 2; have e3 := e 3; have e4 := e 4; have e5 := e 5; have e6 := e 6; have e7 := e 7
  simp only [le64, byteAt64, BitVec.extractLsb'_or, extract_low_byte _ m (show 8 * m + 8 ≤ 64 by omega)]
  simp only [Nat.reduceMul] at e1 e2 e3 e4 e5 e6 e7
  rw [e1, e2, e3, e4, e5, e6, e7]
  obtain rfl | rfl | rfl | rfl | rfl | rfl | rfl | rfl :
    m = 0 ∨ m = 1 ∨ m = 2 ∨ m = 3 ∨ m = 4 ∨ m = 5 ∨ m = 6 ∨ m = 7 := by omega
  all_goals simp

/-- A number of `8 * n` bits is fixed by its `n` bytes. -/
theorem eq_of_bytes_eq {n : Nat} {x y : BitVec (8 * n)}
    (h : ∀ m < n, x.extractLsb' (8 * m) 8 = y.extractLsb' (8 * m) 8) : x = y := by
  ext i hi
  have hb := congrArg (fun b => b.getLsbD (i % 8)) (h (i / 8) (by omega))
  simp only [BitVec.getLsbD_extractLsb', show i % 8 < 8 by omega, show 8 * (i / 8) + i % 8 = i by omega,
    decide_true, Bool.true_and] at hb
  rwa [BitVec.getLsbD_eq_getElem hi, BitVec.getLsbD_eq_getElem hi] at hb

/-- A word is read back from its four bytes, whatever follows them. -/
@[simp] theorem le32_bytesLe32_append (w : Word) (rest : Bytes) : le32 (bytesLe32 w ++ rest) 0 = w := by
  refine eq_of_bytes_eq (n := 4) fun m hm => ?_
  rw [le32_byte _ _ _ hm]
  obtain rfl | rfl | rfl | rfl : m = 0 ∨ m = 1 ∨ m = 2 ∨ m = 3 := by omega
  all_goals rfl

/-- A word is read back from its four bytes. -/
@[simp] theorem le32_bytesLe32 (w : Word) : le32 (bytesLe32 w) 0 = w := by
  simpa using le32_bytesLe32_append w []

/-- A u64 is read back from its eight bytes. -/
@[simp] theorem le64_bytesLe64 (q : Word64) : le64 (bytesLe64 q) 0 = q := by
  refine eq_of_bytes_eq (n := 8) fun m hm => ?_
  rw [le64_byte _ _ _ hm]
  obtain rfl | rfl | rfl | rfl | rfl | rfl | rfl | rfl :
    m = 0 ∨ m = 1 ∨ m = 2 ∨ m = 3 ∨ m = 4 ∨ m = 5 ∨ m = 6 ∨ m = 7 := by omega
  all_goals rfl

/-- Four bytes are the bytes of the word read from them. -/
theorem bytesLe32_le32 {b : Bytes} (h : b.length = 4) : bytesLe32 (le32 b 0) = b := by
  obtain ⟨b0, b1, b2, b3, rfl⟩ : ∃ b0 b1 b2 b3, b = [b0, b1, b2, b3] := by
    match b, h with
    | [b0, b1, b2, b3], _ => exact ⟨b0, b1, b2, b3, rfl⟩
  have e (m : Nat) (hm : m < 4) := le32_byte [b0, b1, b2, b3] 0 m hm
  have e0 := e 0 (by omega); have e1 := e 1 (by omega); have e2 := e 2 (by omega); have e3 := e 3 (by omega)
  simp only [Nat.reduceMul, Nat.reduceAdd] at e0 e1 e2 e3
  simp only [bytesLe32, e0, e1, e2, e3]
  rfl

/-- Eight bytes are the bytes of the number read from them. -/
theorem bytesLe64_le64 {b : Bytes} (h : b.length = 8) : bytesLe64 (le64 b 0) = b := by
  obtain ⟨b0, b1, b2, b3, b4, b5, b6, b7, rfl⟩ :
      ∃ b0 b1 b2 b3 b4 b5 b6 b7, b = [b0, b1, b2, b3, b4, b5, b6, b7] := by
    match b, h with
    | [b0, b1, b2, b3, b4, b5, b6, b7], _ => exact ⟨b0, b1, b2, b3, b4, b5, b6, b7, rfl⟩
  have e (m : Nat) (hm : m < 8) := le64_byte [b0, b1, b2, b3, b4, b5, b6, b7] 0 m hm
  have e0 := e 0 (by omega); have e1 := e 1 (by omega); have e2 := e 2 (by omega); have e3 := e 3 (by omega)
  have e4 := e 4 (by omega); have e5 := e 5 (by omega); have e6 := e 6 (by omega); have e7 := e 7 (by omega)
  simp only [Nat.reduceMul, Nat.reduceAdd] at e0 e1 e2 e3 e4 e5 e6 e7
  simp only [bytesLe64, e0, e1, e2, e3, e4, e5, e6, e7]
  rfl

/-- Two words with the same four bytes are the same. -/
theorem bytesLe32_injective : Function.Injective bytesLe32 := fun v w h => by
  rw [← le32_bytesLe32 v, h, le32_bytesLe32]

/-! ### Fields off the front of a stream -/

/-- The bytes a field takes are read, and the rest is left. -/
theorem takeBytes_append {n : Nat} {field : Bytes} (rest : Bytes) (h : field.length = n) :
    takeBytes n (field ++ rest) = some (field, rest) := by
  subst h
  simp [takeBytes]

/-- A field that was read stood at the front of the stream. -/
theorem takeBytes_eq_some {n : Nat} {stream field rest : Bytes} :
    takeBytes n stream = some (field, rest) ↔ stream = field ++ rest ∧ field.length = n := by
  constructor
  · intro h
    unfold takeBytes at h
    split at h
    · simp only [Option.some.injEq, Prod.mk.injEq] at h
      obtain ⟨rfl, rfl⟩ := h
      exact ⟨(List.take_append_drop n stream).symm, by simpa using ‹n ≤ stream.length›⟩
    · cases h
  · rintro ⟨rfl, h⟩
    exact takeBytes_append rest h

/-- A u32 field reads `w` exactly when the stream begins with the bytes of `w`. -/
theorem takeLe32_eq_some {stream rest : Bytes} {w : Word} :
    takeLe32 stream = some (w, rest) ↔ stream = bytesLe32 w ++ rest := by
  constructor
  · intro h
    obtain ⟨⟨b, r⟩, hb, hw⟩ := Option.map_eq_some_iff.mp h
    obtain ⟨rfl, hl⟩ := takeBytes_eq_some.mp hb
    obtain ⟨rfl, rfl⟩ := Prod.mk.inj hw
    rw [bytesLe32_le32 hl]
  · rintro rfl
    simp [takeLe32, takeBytes_append rest (bytesLe32_length w)]

/-- A u64 field reads `q` exactly when the stream begins with the bytes of `q`. -/
theorem takeLe64_eq_some {stream rest : Bytes} {q : Word64} :
    takeLe64 stream = some (q, rest) ↔ stream = bytesLe64 q ++ rest := by
  constructor
  · intro h
    obtain ⟨⟨b, r⟩, hb, hq⟩ := Option.map_eq_some_iff.mp h
    obtain ⟨rfl, hl⟩ := takeBytes_eq_some.mp hb
    obtain ⟨rfl, rfl⟩ := Prod.mk.inj hq
    rw [bytesLe64_le64 hl]
  · rintro rfl
    simp [takeLe64, takeBytes_append rest (bytesLe64_length q)]

/-- A counted field reads `b` exactly when the stream begins with the length and the bytes of `b`, and the length is a u32. -/
theorem takeCounted_eq_some {stream rest b : Bytes} :
    takeCounted stream = some (b, rest) ↔ stream = putCounted b ++ rest ∧ lengthFits b = true := by
  constructor
  · intro h
    obtain ⟨⟨n, r⟩, hn, hb⟩ := Option.bind_eq_some_iff.mp h
    rw [takeLe32_eq_some] at hn
    obtain ⟨rfl, hl⟩ := takeBytes_eq_some.mp hb
    subst hn
    refine ⟨by simp [putCounted, hl], ?_⟩
    simpa [lengthFits, hl] using n.isLt
  · rintro ⟨rfl, hl⟩
    have hl : b.length < 2 ^ 32 := by simpa [lengthFits] using hl
    refine Option.bind_eq_some_iff.mpr ⟨(BitVec.ofNat 32 b.length, b ++ rest), ?_, ?_⟩
    · rw [takeLe32_eq_some]; simp [putCounted]
    · exact takeBytes_append rest (by rw [BitVec.toNat_ofNat, Nat.mod_eq_of_lt hl])

/-- What the counted pair of ENCRYPT and DECRYPT reads (R66). -/
theorem takeBuffers_eq_some {stream rest src dst : Bytes} :
    takeBuffers stream = some ((src, dst), rest) ↔
      stream = putCounted src ++ putCounted dst ++ rest ∧ lengthFits src = true ∧ lengthFits dst = true := by
  constructor
  · intro h
    obtain ⟨⟨b, r⟩, hb, h1⟩ := Option.bind_eq_some_iff.mp h
    obtain ⟨⟨b', r'⟩, hb', h2⟩ := Option.map_eq_some_iff.mp h1
    obtain ⟨rfl, hl⟩ := takeCounted_eq_some.mp hb
    obtain ⟨hr, hl'⟩ := takeCounted_eq_some.mp hb'
    simp only at hr
    simp only [Prod.mk.injEq] at h2
    obtain ⟨⟨rfl, rfl⟩, rfl⟩ := h2
    exact ⟨by simp [hr], hl, hl'⟩
  · rintro ⟨rfl, hl, hl'⟩
    refine Option.bind_eq_some_iff.mpr ⟨(src, putCounted dst ++ rest), ?_, ?_⟩
    · exact takeCounted_eq_some.mpr ⟨by simp, hl⟩
    · exact Option.map_eq_some_iff.mpr ⟨(dst, rest), takeCounted_eq_some.mpr ⟨rfl, hl'⟩, rfl⟩

/-- What the fields of CONSTRUCT read (R63). -/
theorem takeConstruct_eq_some {stream rest : Bytes} {i : Instr} :
    takeConstruct stream = some (i, rest) ↔
      ∃ key nonce counter, i = .construct key nonce counter ∧
        stream = putCounted key ++ putCounted nonce ++ bytesLe32 counter ++ rest ∧
        lengthFits key = true ∧ lengthFits nonce = true := by
  constructor
  · intro h
    obtain ⟨⟨key, r⟩, hk, h1⟩ := Option.bind_eq_some_iff.mp h
    obtain ⟨⟨nonce, r'⟩, hn, h2⟩ := Option.bind_eq_some_iff.mp h1
    obtain ⟨⟨ctr, r''⟩, hc, h3⟩ := Option.map_eq_some_iff.mp h2
    obtain ⟨rfl, hl⟩ := takeCounted_eq_some.mp hk
    obtain ⟨hr, hl'⟩ := takeCounted_eq_some.mp hn
    rw [takeLe32_eq_some] at hc
    simp only at hr hc
    obtain ⟨rfl, rfl⟩ := Prod.mk.inj h3
    exact ⟨key, nonce, ctr, rfl, by simp [hr, hc], hl, hl'⟩
  · rintro ⟨key, nonce, counter, rfl, rfl, hl, hl'⟩
    refine Option.bind_eq_some_iff.mpr ⟨(key, putCounted nonce ++ bytesLe32 counter ++ rest), ?_, ?_⟩
    · exact takeCounted_eq_some.mpr ⟨by simp, hl⟩
    refine Option.bind_eq_some_iff.mpr ⟨(nonce, bytesLe32 counter ++ rest), ?_, ?_⟩
    · exact takeCounted_eq_some.mpr ⟨by simp, hl'⟩
    exact Option.map_eq_some_iff.mpr ⟨(counter, rest), takeLe32_eq_some.mpr rfl, rfl⟩

/-- Decoding reads the header word first (R67). -/
theorem decode_header (h : Word) (rest : Bytes) : decode (bytesLe32 h ++ rest) = decodeFields h rest := by
  have e : takeLe32 (bytesLe32 h ++ rest) = some (h, rest) := takeLe32_eq_some.mpr rfl
  simp [decode, e]

/-- Either fewer than four bytes have arrived, or the stream begins with a header word. -/
theorem decode_cases (stream : Bytes) :
    (stream.length < 4 ∧ decode stream = .hold) ∨
    ∃ h rest, stream = bytesLe32 h ++ rest ∧ decode stream = decodeFields h rest := by
  rcases Nat.lt_or_ge stream.length 4 with h | h
  · left
    refine ⟨h, ?_⟩
    simp [decode, takeLe32, takeBytes, Nat.not_le.mpr h]
  · right
    have e : stream = bytesLe32 (le32 (stream.take 4) 0) ++ stream.drop 4 := by
      rw [bytesLe32_le32 (by simpa using h), List.take_append_drop]
    exact ⟨_, _, e, by conv_lhs => rw [e, decode_header]⟩

end Sys2Proof
end

