-- ==== Sys2Proof/Laws/State.lean ====
section
/-! SUPPORT. One lemma per field of State per update of it. -/

namespace Sys2Proof.Machine

variable (s : State)

section Writes
variable (words : Vector Word 16) (block : Vector Byte 64) (v : Bool) (rest : Bytes) (code : RespCode) (payload : Bytes)

@[simp] theorem writeS_S : (s.writeS words).S = words := rfl
@[simp] theorem writeS_KS : (s.writeS words).KS = s.KS := rfl
@[simp] theorem writeS_VALID : (s.writeS words).VALID = s.VALID := rfl
@[simp] theorem writeS_cmdPort : (s.writeS words).cmdPort = s.cmdPort := rfl
@[simp] theorem writeS_respPort : (s.writeS words).respPort = s.respPort := rfl
@[simp] theorem writeS_sender : (s.writeS words).sender = s.sender := rfl
@[simp] theorem writeS_draw : (s.writeS words).draw = s.draw := rfl

@[simp] theorem writeKS_S : (s.writeKS block).S = s.S := rfl
@[simp] theorem writeKS_KS : (s.writeKS block).KS = block := rfl
@[simp] theorem writeKS_VALID : (s.writeKS block).VALID = s.VALID := rfl
@[simp] theorem writeKS_cmdPort : (s.writeKS block).cmdPort = s.cmdPort := rfl
@[simp] theorem writeKS_respPort : (s.writeKS block).respPort = s.respPort := rfl
@[simp] theorem writeKS_sender : (s.writeKS block).sender = s.sender := rfl
@[simp] theorem writeKS_draw : (s.writeKS block).draw = s.draw := rfl

@[simp] theorem writeVALID_S : (s.writeVALID v).S = s.S := rfl
@[simp] theorem writeVALID_KS : (s.writeVALID v).KS = s.KS := rfl
@[simp] theorem writeVALID_VALID : (s.writeVALID v).VALID = v := rfl
@[simp] theorem writeVALID_cmdPort : (s.writeVALID v).cmdPort = s.cmdPort := rfl
@[simp] theorem writeVALID_respPort : (s.writeVALID v).respPort = s.respPort := rfl
@[simp] theorem writeVALID_sender : (s.writeVALID v).sender = s.sender := rfl
@[simp] theorem writeVALID_draw : (s.writeVALID v).draw = s.draw := rfl

@[simp] theorem setCmdPort_S : (s.setCmdPort rest).S = s.S := rfl
@[simp] theorem setCmdPort_KS : (s.setCmdPort rest).KS = s.KS := rfl
@[simp] theorem setCmdPort_VALID : (s.setCmdPort rest).VALID = s.VALID := rfl
@[simp] theorem setCmdPort_cmdPort : (s.setCmdPort rest).cmdPort = rest := rfl
@[simp] theorem setCmdPort_respPort : (s.setCmdPort rest).respPort = s.respPort := rfl
@[simp] theorem setCmdPort_sender : (s.setCmdPort rest).sender = s.sender := rfl
@[simp] theorem setCmdPort_draw : (s.setCmdPort rest).draw = s.draw := rfl

@[simp] theorem answer_S : (s.answer code payload).S = s.S := rfl
@[simp] theorem answer_KS : (s.answer code payload).KS = s.KS := rfl
@[simp] theorem answer_VALID : (s.answer code payload).VALID = s.VALID := rfl
@[simp] theorem answer_cmdPort : (s.answer code payload).cmdPort = s.cmdPort := rfl
@[simp] theorem answer_respPort : (s.answer code payload).respPort = s.respPort ++ respond code payload := rfl
@[simp] theorem answer_sender : (s.answer code payload).sender = s.sender := rfl
@[simp] theorem answer_draw : (s.answer code payload).draw = s.draw := rfl

@[simp] theorem setCmdPort_self : s.setCmdPort s.cmdPort = s := rfl
@[simp] theorem setCmdPort_setCmdPort (rest' : Bytes) : (s.setCmdPort rest).setCmdPort rest' = s.setCmdPort rest' := rfl

end Writes

section Reset

@[simp] theorem reset_VALID : State.reset.VALID = false := rfl
@[simp] theorem reset_cmdPort : State.reset.cmdPort = [] := rfl
@[simp] theorem reset_respPort : State.reset.respPort = [] := rfl

@[simp] theorem hardReset_VALID : (hardReset s).VALID = false := rfl
@[simp] theorem hardReset_cmdPort : (hardReset s).cmdPort = [] := rfl
@[simp] theorem hardReset_respPort : (hardReset s).respPort = [] := rfl
@[simp] theorem hardReset_sender : (hardReset s).sender = 0 := rfl
@[simp] theorem hardReset_draw : (hardReset s).draw = s.draw + 1 := rfl

@[simp] theorem hostAct_reset : hostAct .reset s = hardReset s := rfl
@[simp] theorem hostAct_receive_respPort (n : Nat) : (hostAct (.receive n) s).respPort = s.respPort.drop n := rfl

end Reset

section Sends
variable (host : Nat) (bytes : Bytes)

@[simp] theorem takeFrom_S : (s.takeFrom host bytes).S = s.S := rfl
@[simp] theorem takeFrom_KS : (s.takeFrom host bytes).KS = s.KS := rfl
@[simp] theorem takeFrom_VALID : (s.takeFrom host bytes).VALID = s.VALID := rfl
@[simp] theorem takeFrom_cmdPort : (s.takeFrom host bytes).cmdPort = s.cmdPort ++ bytes := rfl
@[simp] theorem takeFrom_respPort : (s.takeFrom host bytes).respPort = s.respPort := rfl
@[simp] theorem takeFrom_sender : (s.takeFrom host bytes).sender = host := rfl
@[simp] theorem takeFrom_draw : (s.takeFrom host bytes).draw = s.draw := rfl

/-- To whom the port listens (R51). -/
theorem accepts_iff : s.accepts host = true ↔ unfinished s.cmdPort = [] ∨ s.sender = host := by simp [State.accepts]

/-- At an empty port every host is listened to. -/
theorem accepts_of_empty (h : s.cmdPort = []) : s.accepts host = true := by simp [State.accepts, h, unfinished, afterFrames]

/-- The host whose frame is unfinished is listened to. -/
@[simp] theorem accepts_sender : s.accepts s.sender = true := by simp [State.accepts]

theorem hostAct_send_accepted (h : s.accepts host = true) : hostAct (.send host bytes) s = s.takeFrom host bytes := if_pos h

theorem hostAct_send_held (h : s.accepts host = false) : hostAct (.send host bytes) s = s := by simp [hostAct, h]

/-- All that a delivery can do. -/
theorem hostAct_send_cases : hostAct (.send host bytes) s = s.takeFrom host bytes ∨ hostAct (.send host bytes) s = s := by
  cases h : s.accepts host with
  | true => exact .inl (hostAct_send_accepted _ _ _ h)
  | false => exact .inr (hostAct_send_held _ _ _ h)

@[simp] theorem hostAct_send_S : (hostAct (.send host bytes) s).S = s.S := by
  rcases hostAct_send_cases s host bytes with e | e <;> simp [e]
@[simp] theorem hostAct_send_KS : (hostAct (.send host bytes) s).KS = s.KS := by
  rcases hostAct_send_cases s host bytes with e | e <;> simp [e]
@[simp] theorem hostAct_send_VALID : (hostAct (.send host bytes) s).VALID = s.VALID := by
  rcases hostAct_send_cases s host bytes with e | e <;> simp [e]
@[simp] theorem hostAct_send_respPort : (hostAct (.send host bytes) s).respPort = s.respPort := by
  rcases hostAct_send_cases s host bytes with e | e <;> simp [e]
@[simp] theorem hostAct_send_draw : (hostAct (.send host bytes) s).draw = s.draw := by
  rcases hostAct_send_cases s host bytes with e | e <;> simp [e]

end Sends

end Sys2Proof.Machine
end

