-- ==== Sys2Proof/Laws/Ops.lean ====
section
/-! SUPPORT. The shared operations: the counter, the answers, the VALID check. -/

namespace Sys2Proof.Machine

/-! ### The block counter -/

section Counter
variable (S : Vector Word 16) (c d : Word)

@[simp] theorem withCounter_counter : (withCounter S c)[12] = c := by simp [withCounter]

theorem withCounter_other {j : Nat} (hj : j < 16) (h : j ≠ 12) : (withCounter S c)[j] = S[j] := by
  simp [withCounter, h.symm]

@[simp] theorem withCounter_withCounter : withCounter (withCounter S c) d = withCounter S d := by
  ext j hj
  simp only [withCounter, Vector.getElem_set]
  split <;> rfl

@[simp] theorem withCounter_self : withCounter S S[12] = S := by
  ext j hj
  simp only [withCounter, Vector.getElem_set]
  split
  · subst_vars; rfl
  · rfl

@[simp] theorem advanceCounter_counter : (advanceCounter S)[12] = S[12] + 1 := by simp [advanceCounter]

@[simp] theorem withCounter_advanceCounter : withCounter (advanceCounter S) d = withCounter S d := by
  simp [advanceCounter]

end Counter

/-! ### Answers -/

/-- Different codes have different numbers (R150). -/
theorem respCodeValue_injective : Function.Injective respCodeValue := by
  intro a b h
  cases a <;> cases b <;> first | rfl | exact absurd h (by decide)

@[simp] theorem respond_length (code : RespCode) (payload : Bytes) :
    (respond code payload).length = 4 + payload.length := by simp [respond]

/-- A response frame fixes its code and its payload: "The host reads the code first" (R68). -/
theorem respond_inj {code code' : RespCode} {payload payload' : Bytes}
    (h : respond code payload = respond code' payload') : code = code' ∧ payload = payload' := by
  obtain ⟨hc, hp⟩ := List.append_inj h (by simp)
  exact ⟨respCodeValue_injective (bytesLe32_injective hc), hp⟩

/-! ### VALID -/

@[simp] theorem requireVALID_of_valid {s : State} (h : s.VALID = true) (body : Result) : requireVALID s body = body := by
  simp [requireVALID, h]

@[simp] theorem requireVALID_of_not_valid {s : State} (h : s.VALID = false) (body : Result) :
    requireVALID s body = raise .notConfigured s := by
  simp [requireVALID, h]

/-! ### The words a load writes -/

section Loads
variable (key nonce : Bytes) (counter : Word)

@[simp] theorem constructedS_counter : (constructedS key nonce counter)[12] = counter := rfl

theorem constructedS_key {k : Nat} (h : k < 8) : (constructedS key nonce counter)[4 + k] = keyWord key k := by
  obtain rfl | rfl | rfl | rfl | rfl | rfl | rfl | rfl :
    k = 0 ∨ k = 1 ∨ k = 2 ∨ k = 3 ∨ k = 4 ∨ k = 5 ∨ k = 6 ∨ k = 7 := by omega
  all_goals rfl

theorem constructedS_nonce {k : Nat} (h : k < 3) : (constructedS key nonce counter)[13 + k] = nonceWord nonce k := by
  obtain rfl | rfl | rfl : k = 0 ∨ k = 1 ∨ k = 2 := by omega
  all_goals rfl

/-- A sequence reset leaves every other word (R86, R87). -/
theorem resequencedS_other (S : Vector Word 16) (seq : Word64) {j : Nat} (hj : j < 16)
    (h12 : j ≠ 12) (h14 : j ≠ 14) (h15 : j ≠ 15) : (resequencedS S seq)[j] = S[j] := by
  simp [resequencedS, withCounter, h12.symm, h14.symm, h15.symm]

@[simp] theorem resequencedS_counter (S : Vector Word 16) (seq : Word64) : (resequencedS S seq)[12] = 1 := by
  simp [resequencedS, withCounter]

@[simp] theorem resequencedS_low (S : Vector Word 16) (seq : Word64) : (resequencedS S seq)[14] = seqLow seq := by
  simp [resequencedS, withCounter]

@[simp] theorem resequencedS_high (S : Vector Word 16) (seq : Word64) : (resequencedS S seq)[15] = seqHigh seq := by
  simp [resequencedS, withCounter]

end Loads

end Sys2Proof.Machine
end

