-- ==== Sys2Proof/Laws/Block.lean ====
section
/-! SUPPORT. The block transform: what a quarter-round at a group writes, that quarter-rounds at disjoint groups commute, that
rotations undo each other, and where the bytes of a serialized word stand. -/

namespace Sys2Proof.Machine

/-! ### Quarter-rounds in place -/

/-- Word `j` after a quarter-round in place. -/
theorem quarterRoundAt_getElem (W : Vector Word 16) (g : Group) (j : Nat) (hj : j < 16) :
    (quarterRoundAt W g)[j] =
      if g.2.2.2.val = j then (QR W[g.1] W[g.2.1] W[g.2.2.1] W[g.2.2.2]).2.2.2
      else if g.2.2.1.val = j then (QR W[g.1] W[g.2.1] W[g.2.2.1] W[g.2.2.2]).2.2.1
      else if g.2.1.val = j then (QR W[g.1] W[g.2.1] W[g.2.2.1] W[g.2.2.2]).2.1
      else if g.1.val = j then (QR W[g.1] W[g.2.1] W[g.2.2.1] W[g.2.2.2]).1
      else W[j] := by
  simp only [quarterRoundAt, Vector.getElem_set]

/-- A quarter-round in place leaves the words outside its group. -/
theorem quarterRoundAt_other (W : Vector Word 16) (g : Group) (j : Fin 16)
    (h : j ≠ g.1 ∧ j ≠ g.2.1 ∧ j ≠ g.2.2.1 ∧ j ≠ g.2.2.2) : (quarterRoundAt W g)[j] = W[j] := by
  obtain ⟨h1, h2, h3, h4⟩ := h
  simp only [Fin.getElem_fin, quarterRoundAt_getElem]
  rw [if_neg, if_neg, if_neg, if_neg] <;> (rw [← Fin.ext_iff]; exact Ne.symm ‹_›)

/-- A quarter-round in place reads its own group only. -/
theorem quarterRoundAt_inside {V W : Vector Word 16} {g : Group} (h1 : V[g.1] = W[g.1]) (h2 : V[g.2.1] = W[g.2.1])
    (h3 : V[g.2.2.1] = W[g.2.2.1]) (h4 : V[g.2.2.2] = W[g.2.2.2]) {j : Fin 16} (hj : V[j] = W[j]) :
    (quarterRoundAt V g)[j] = (quarterRoundAt W g)[j] := by
  simp only [Fin.getElem_fin] at *
  simp only [quarterRoundAt_getElem, Fin.getElem_fin, h1, h2, h3, h4, hj]

/-- Two groups "share no index" (R103). -/
abbrev GroupsDisjoint (g h : Group) : Prop :=
  ∀ a ∈ [g.1, g.2.1, g.2.2.1, g.2.2.2], ∀ b ∈ [h.1, h.2.1, h.2.2.1, h.2.2.2], a ≠ b

/-- The words of a group are not touched by a quarter-round at a disjoint one. -/
theorem quarterRoundAt_disjoint (W : Vector Word 16) {g h : Group} (d : GroupsDisjoint g h) {j : Fin 16}
    (hj : j ∈ [g.1, g.2.1, g.2.2.1, g.2.2.2]) : (quarterRoundAt W h)[j] = W[j] :=
  quarterRoundAt_other W h j ⟨d j hj _ (by simp), d j hj _ (by simp), d j hj _ (by simp), d j hj _ (by simp)⟩

/-- Quarter-rounds at disjoint groups may run in either order (R103). -/
theorem quarterRoundAt_comm (W : Vector Word 16) (g h : Group) (d : GroupsDisjoint g h) :
    quarterRoundAt (quarterRoundAt W g) h = quarterRoundAt (quarterRoundAt W h) g := by
  have d' : GroupsDisjoint h g := fun b hb a ha => (d a ha b hb).symm
  have key (j : Fin 16) : (quarterRoundAt (quarterRoundAt W g) h)[j] = (quarterRoundAt (quarterRoundAt W h) g)[j] := by
    by_cases hg : j ∈ [g.1, g.2.1, g.2.2.1, g.2.2.2]
    · rw [quarterRoundAt_disjoint _ d hg]
      refine (quarterRoundAt_inside ?_ ?_ ?_ ?_ (quarterRoundAt_disjoint W d hg)).symm
      all_goals exact quarterRoundAt_disjoint W d (by simp)
    · have og := quarterRoundAt_other (quarterRoundAt W h) g j (by simpa using hg)
      have og' := quarterRoundAt_other W g j (by simpa using hg)
      rw [og]
      by_cases hh : j ∈ [h.1, h.2.1, h.2.2.1, h.2.2.2]
      · refine quarterRoundAt_inside ?_ ?_ ?_ ?_ og'
        all_goals exact quarterRoundAt_disjoint W d' (by simp)
      · rw [quarterRoundAt_other _ h j (by simpa using hh), quarterRoundAt_other _ h j (by simpa using hh), og']
  ext1 j hj
  exact key ⟨j, hj⟩

/-- The column groups are disjoint. -/
theorem columnGroups_disjoint : ∀ g ∈ columnGroups, ∀ h ∈ columnGroups, g ≠ h → GroupsDisjoint g h := by decide

/-- The diagonal groups are disjoint. -/
theorem diagonalGroups_disjoint : ∀ g ∈ diagonalGroups, ∀ h ∈ diagonalGroups, g ≠ h → GroupsDisjoint g h := by decide

/-- `n` double rounds are DR repeated `n` times. -/
theorem doubleRounds_iterate (n : Nat) (W : Vector Word 16) : doubleRounds n W = DR^[n] W := by
  induction n generalizing W with
  | zero => rfl
  | succ n ih => rw [doubleRounds, ih]; rfl

/-! ### Rotations -/

/-- The rotation of R9 is the library's. -/
theorem rotl32_eq_rotateLeft (x : Word) {n : Nat} (hn : n < 32) : rotl32 x n = x.rotateLeft n := by
  simp [rotl32, BitVec.rotateLeft, BitVec.rotateLeftAux, Nat.mod_eq_of_lt hn]

/-- "the bits shifted out at the top re-enter at the bottom" (R100). -/
theorem rotateRight_rotl32 (x : Word) {n : Nat} (h0 : 0 < n) (hn : n < 32) : (rotl32 x n).rotateRight n = x := by
  rw [rotl32_eq_rotateLeft x hn]
  ext i hi
  rw [BitVec.getElem_rotateRight]
  simp only [Nat.mod_eq_of_lt hn, BitVec.getElem_rotateLeft]
  split <;> split <;> first | omega | (congr 1; omega)

/-- The other way round. -/
theorem rotl32_rotateRight (x : Word) {n : Nat} (h0 : 0 < n) (hn : n < 32) : rotl32 (x.rotateRight n) n = x := by
  rw [rotl32_eq_rotateLeft _ hn]
  ext i hi
  rw [BitVec.getElem_rotateLeft]
  simp only [Nat.mod_eq_of_lt hn, BitVec.getElem_rotateRight]
  split <;> split <;> first | omega | (congr 1; omega)

/-! ### Serialization -/

/-- Byte `4 i + m` of the serialized words (R105). -/
theorem serialize_byte (X : Vector Word 16) {i m : Nat} (hi : i < 16) (hm : m < 4) :
    (serialize X)[4 * i + m] = X[i].extractLsb' (8 * m) 8 := by
  have e1 : (4 * i + m) / 4 = i := by omega
  have e2 : (4 * i + m) % 4 = m := by omega
  simp only [serialize, Vector.getElem_ofFn, e1, e2]

/-- Byte `k` of the words' bytes in a row. -/
theorem flatMap_bytesLe32_getElem? (X : List Word) (k : Nat) :
    (X.flatMap bytesLe32)[k]? = X[k / 4]?.map fun w => w.extractLsb' (8 * (k % 4)) 8 := by
  induction X generalizing k with
  | nil => simp
  | cons w X ih =>
    rw [List.flatMap_cons]
    rcases Nat.lt_or_ge k 4 with hk | hk
    · rw [List.getElem?_append_left (by simpa using hk)]
      obtain rfl | rfl | rfl | rfl : k = 0 ∨ k = 1 ∨ k = 2 ∨ k = 3 := by omega
      all_goals rfl
    · rw [List.getElem?_append_right (by simpa using hk), ih, bytesLe32_length]
      have e1 : k / 4 = (k - 4) / 4 + 1 := by omega
      have e2 : k % 4 = (k - 4) % 4 := by omega
      rw [e1, e2, List.getElem?_cons_succ]

end Sys2Proof.Machine
end

