-- ==== Sys2Proof/Laws/Xor.lean ====
section
/-! SUPPORT. What the stream-XOR kernel leaves: one lemma for each part of its result. -/

namespace Sys2Proof.Machine

/-- The block the kernel XORs with the byte `k` places on from index `i`, when it is at index `i` with `S` and `KS`: what is left
of the current block, then the blocks of the counter values from S[12] on. -/
def kernelBlock (i : Nat) (S : Vector Word 16) (KS : Vector Byte 64) (k : Nat) : Vector Byte 64 :=
  if (i + k) / 64 < (i + 63) / 64 then KS
  else BLOCK (withCounter S (S[12] + BitVec.ofNat 32 ((i + k) / 64 - (i + 63) / 64)))

/-- Where a block ends the kernel draws the next one. -/
theorem kernelBlock_start {i : Nat} (h : i % 64 = 0) (S : Vector Word 16) (KS : Vector Byte 64) :
    kernelBlock i S KS 0 = BLOCK S := by
  have h1 : ¬ (i + 0) / 64 < (i + 63) / 64 := by omega
  have h2 : (i + 0) / 64 - (i + 63) / 64 = 0 := by omega
  rw [kernelBlock, if_neg h1, h2]
  simp

/-- Inside a block the kernel goes on with the one it has. -/
theorem kernelBlock_inside {i : Nat} (h : i % 64 ≠ 0) (S : Vector Word 16) (KS : Vector Byte 64) :
    kernelBlock i S KS 0 = KS := by
  have h1 : (i + 0) / 64 < (i + 63) / 64 := by omega
  simp only [kernelBlock, h1, if_true]

/-- After the byte at a block's start the kernel is one block further. -/
theorem kernelBlock_next_start {i : Nat} (h : i % 64 = 0) (S : Vector Word 16) (KS : Vector Byte 64) (k : Nat) :
    kernelBlock (i + 1) (advanceCounter S) (BLOCK S) k = kernelBlock i S KS (k + 1) := by
  have h1 : ¬ (i + (k + 1)) / 64 < (i + 63) / 64 := by omega
  unfold kernelBlock
  rw [if_neg h1]
  by_cases hk : (i + 1 + k) / 64 < (i + 1 + 63) / 64
  · have h2 : (i + (k + 1)) / 64 - (i + 63) / 64 = 0 := by omega
    simp [hk, h2]
  · have h2 : (i + (k + 1)) / 64 - (i + 63) / 64 = 1 + ((i + 1 + k) / 64 - (i + 1 + 63) / 64) := by omega
    rw [if_neg hk, h2, BitVec.ofNat_add]
    simp [BitVec.add_assoc]

/-- After a byte inside a block nothing has changed but the index. -/
theorem kernelBlock_next_inside {i : Nat} (h : i % 64 ≠ 0) (S : Vector Word 16) (KS : Vector Byte 64) (k : Nat) :
    kernelBlock (i + 1) S KS k = kernelBlock i S KS (k + 1) := by
  have h1 : (i + 1 + 63) / 64 = (i + 63) / 64 := by omega
  have h2 : i + 1 + k = i + (k + 1) := by omega
  simp only [kernelBlock, h1, h2]

/-- The kernel returns as many bytes as the destination has. -/
theorem xorFrom_length (src dst : Bytes) (h : src.length ≤ dst.length) (i : Nat) (S : Vector Word 16) (KS : Vector Byte 64) :
    (xorFrom i src dst S KS).out.length = dst.length := by
  induction src generalizing dst i S KS with
  | nil => rfl
  | cons b src ih =>
    cases dst with
    | nil => simp at h
    | cons d dst => simp only [xorFrom, List.length_cons]; rw [ih dst (by simpa using h)]

/-- Byte `k` of the kernel's output (R130, R137). -/
theorem xorFrom_byte (src dst : Bytes) (h : src.length ≤ dst.length) (i : Nat) (S : Vector Word 16) (KS : Vector Byte 64)
    (k : Nat) (hk : k < src.length) :
    (xorFrom i src dst S KS).out[k]? = some (src[k] ^^^ (kernelBlock i S KS k)[(i + k) % 64]) := by
  induction src generalizing dst i S KS k with
  | nil => simp at hk
  | cons b src ih =>
    cases dst with
    | nil => simp at h
    | cons d dst =>
      by_cases h0 : i % 64 = 0
      · cases k with
        | zero => simp [xorFrom, h0, GEN, kernelBlock_start h0]
        | succ k =>
          have := ih dst (by simpa using h) (i + 1) (advanceCounter S) (BLOCK S) k (by simpa using hk)
          rw [kernelBlock_next_start h0 S KS k] at this
          simpa [xorFrom, h0, GEN, show i + (k + 1) = i + 1 + k by omega] using this
      · cases k with
        | zero => simp [xorFrom, h0, kernelBlock_inside h0]
        | succ k =>
          have := ih dst (by simpa using h) (i + 1) S KS k (by simpa using hk)
          rw [kernelBlock_next_inside h0 S KS k] at this
          simpa [xorFrom, h0, show i + (k + 1) = i + 1 + k by omega] using this

/-- Bytes past the source keep their values (R130). -/
theorem xorFrom_tail (src dst : Bytes) (h : src.length ≤ dst.length) (i : Nat) (S : Vector Word 16) (KS : Vector Byte 64)
    (k : Nat) (hk : src.length ≤ k) : (xorFrom i src dst S KS).out[k]? = dst[k]? := by
  induction src generalizing dst i S KS k with
  | nil => rfl
  | cons b src ih =>
    cases dst with
    | nil => simp at h
    | cons d dst =>
      cases k with
      | zero => simp at hk
      | succ k => simpa [xorFrom] using ih dst (by simpa using h) (i + 1) _ _ k (by simpa using hk)

/-- The kernel advances the counter by the blocks it draws, and writes no other word (R130, R135). -/
theorem xorFrom_S (src dst : Bytes) (h : src.length ≤ dst.length) (i : Nat) (S : Vector Word 16) (KS : Vector Byte 64) :
    (xorFrom i src dst S KS).S =
      withCounter S (S[12] + BitVec.ofNat 32 ((i + src.length + 63) / 64 - (i + 63) / 64)) := by
  induction src generalizing dst i S KS with
  | nil => simp [xorFrom]
  | cons b src ih =>
    cases dst with
    | nil => simp at h
    | cons d dst =>
      simp only [xorFrom]
      rw [ih dst (by simpa using h)]
      by_cases h0 : i % 64 = 0
      · have e : (i + (b :: src).length + 63) / 64 - (i + 63) / 64 =
            1 + ((i + 1 + src.length + 63) / 64 - (i + 1 + 63) / 64) := by
          simp only [List.length_cons]; omega
        rw [e, BitVec.ofNat_add]
        simp [h0, GEN, BitVec.add_assoc]
      · have e : (i + (b :: src).length + 63) / 64 - (i + 63) / 64 =
            (i + 1 + src.length + 63) / 64 - (i + 1 + 63) / 64 := by
          simp only [List.length_cons]; omega
        rw [e]
        simp [h0]

/-- The kernel leaves the last block it used in KS (R29, R130). -/
theorem xorFrom_KS (src dst : Bytes) (h : src.length ≤ dst.length) (i : Nat) (S : Vector Word 16) (KS : Vector Byte 64) :
    (xorFrom i src dst S KS).KS = if src = [] then KS else kernelBlock i S KS (src.length - 1) := by
  induction src generalizing dst i S KS with
  | nil => rfl
  | cons b src ih =>
    cases dst with
    | nil => simp at h
    | cons d dst =>
      simp only [xorFrom]
      rw [ih dst (by simpa using h)]
      by_cases h0 : i % 64 = 0
      · cases src with
        | nil => simp [h0, GEN, kernelBlock_start h0]
        | cons b' src =>
          simpa [h0, GEN] using kernelBlock_next_start h0 S KS src.length
      · cases src with
        | nil => simp [h0, kernelBlock_inside h0]
        | cons b' src =>
          simpa [h0] using kernelBlock_next_inside h0 S KS src.length

/-- From the start of a call the block of byte `k` is the one of counter S[12] + k / 64; KS does not enter (R30, R134). -/
theorem kernelBlock_zero (S : Vector Word 16) (KS : Vector Byte 64) (k : Nat) :
    kernelBlock 0 S KS k = BLOCK (withCounter S (S[12] + BitVec.ofNat 32 (k / 64))) := by
  simp [kernelBlock]

/-- Neither the output nor S depends on the old KS (R30). -/
theorem XORK_ignores_KS (src dst : Bytes) (h : src.length ≤ dst.length) (S : Vector Word 16) (KS KS' : Vector Byte 64) :
    (XORK src dst S KS).out = (XORK src dst S KS').out ∧ (XORK src dst S KS).S = (XORK src dst S KS').S := by
  refine ⟨List.ext_getElem? fun k => ?_, ?_⟩
  · rcases Nat.lt_or_ge k src.length with hk | hk
    · simp only [XORK, xorFrom_byte src dst h 0 S _ k hk, kernelBlock_zero]
    · simp only [XORK, xorFrom_tail src dst h 0 S _ k hk]
  · simp only [XORK, xorFrom_S src dst h 0 S]

end Sys2Proof.Machine
end

