-- ==== Sys2Proof/Laws/Exec.lean ====
section
/-! SUPPORT. What a command and a step can do, said once. -/

namespace Sys2Proof.Machine

/-! ### The meanings, case by case -/

section Meanings
variable {s : State}

theorem constructTooShort_iff {key nonce : Bytes} :
    constructTooShort key nonce = true ↔ key.length < 32 ∨ nonce.length < 12 := by
  simp [constructTooShort]

theorem bufferTooShort_iff {src dst : Bytes} : bufferTooShort src dst = true ↔ dst.length < src.length := by
  simp [bufferTooShort]

/-- CONSTRUCT with operands too short (R81). -/
theorem execConstruct_short {key nonce : Bytes} (counter : Word) (h : key.length < 32 ∨ nonce.length < 12) :
    execConstruct key nonce counter s = .next (s.answer .configurationError []) := by
  simp [execConstruct, constructTooShort_iff.mpr h, raise]

/-- CONSTRUCT with operands long enough (R82). -/
theorem execConstruct_long {key nonce : Bytes} (counter : Word) (hk : 32 ≤ key.length) (hn : 12 ≤ nonce.length) :
    execConstruct key nonce counter s =
      .next (((s.writeS (constructedS key nonce counter)).writeVALID true).answer .ok []) := by
  have h : constructTooShort key nonce = false := by
    simp [constructTooShort, Nat.not_lt.mpr hk, Nat.not_lt.mpr hn]
  simp [execConstruct, h, complete]

/-- RESET_SEQ of an instance (R86). -/
theorem execResetSeq_valid (seq : Word64) (h : s.VALID = true) :
    execResetSeq seq s = .next ((s.writeS (resequencedS s.S seq)).answer .ok []) := by
  simp [execResetSeq, h, complete]

/-- NEXT_BLOCK of an instance (R110). -/
theorem execNextBlock_valid (h : s.VALID = true) :
    execNextBlock s =
      .next (((s.writeS (advanceCounter s.S)).writeKS (BLOCK s.S)).answer .ok (BLOCK s.S).toList) := by
  simp [execNextBlock, h, complete, GEN]

/-- ENCRYPT and DECRYPT with a destination too short (R136). -/
theorem streamXor_short {src dst : Bytes} (h : s.VALID = true) (hl : dst.length < src.length) :
    streamXor src dst s = .next (s.answer .bufferSizeError []) := by
  simp [streamXor, h, bufferTooShort_iff.mpr hl, raise]

/-- ENCRYPT and DECRYPT of an instance (R131). -/
theorem streamXor_valid {src dst : Bytes} (h : s.VALID = true) (hl : src.length ≤ dst.length) :
    streamXor src dst s =
      .next (((s.writeS (XORK src dst s.S s.KS).S).writeKS (XORK src dst s.S s.KS).KS).answer .ok
        (bytesLe32 (BitVec.ofNat 32 src.length) ++ (XORK src dst s.S s.KS).out)) := by
  have h' : bufferTooShort src dst = false := by simp [bufferTooShort, Nat.not_lt.mpr hl]
  simp [streamXor, h, h', complete]

/-- Without an instance only CONSTRUCT is not refused (R152). -/
theorem exec_not_valid {i : Instr} (h : s.VALID = false) (hi : ¬ IsConstruct i) :
    exec i s = .next (s.answer .notConfigured []) := by
  cases i with
  | construct => exact absurd trivial hi
  | resetSeq => simp [exec, execResetSeq, h, raise]
  | nextBlock => simp [exec, execNextBlock, h, raise]
  | encrypt => simp [exec, execEncrypt, streamXor, h, raise]
  | decrypt => simp [exec, execDecrypt, streamXor, h, raise]

end Meanings

/-! ### What a command can do -/

/-- A command always answers a next state: the old one with one response frame added, and S, KS and VALID written only when
the response is OK. -/
theorem exec_cases (i : Instr) (s : State) :
    (∃ code, code ≠ .ok ∧ exec i s = .next (s.answer code [])) ∨
    (∃ words block payload valid,
      exec i s = .next ((((s.writeS words).writeKS block).writeVALID valid).answer .ok payload)) := by
  by_cases hv : s.VALID = true
  · have valid_again (t : State) (code : RespCode) (payload : Bytes) (ht : t.VALID = true) :
        t.answer code payload = (t.writeVALID true).answer code payload := by
      cases t; simp_all [State.writeVALID, State.answer]
    have buffers (src dst : Bytes) :
        (∃ code, code ≠ .ok ∧ streamXor src dst s = .next (s.answer code [])) ∨
        (∃ words block payload valid,
          streamXor src dst s = .next ((((s.writeS words).writeKS block).writeVALID valid).answer .ok payload)) := by
      rcases Nat.lt_or_ge dst.length src.length with hl | hl
      · exact .inl ⟨.bufferSizeError, by decide, streamXor_short hv hl⟩
      · exact .inr ⟨_, _, _, true, by rw [streamXor_valid hv hl, valid_again]; simpa using hv⟩
    cases i with
    | construct key nonce counter =>
      by_cases h : key.length < 32 ∨ nonce.length < 12
      · exact .inl ⟨.configurationError, by decide, execConstruct_short counter h⟩
      · exact .inr ⟨constructedS key nonce counter, s.KS, [], true,
          execConstruct_long counter (by omega) (by omega)⟩
    | resetSeq seq =>
      exact .inr ⟨resequencedS s.S seq, s.KS, [], true, by
        rw [exec, execResetSeq_valid seq hv, valid_again]; rfl; simpa using hv⟩
    | nextBlock =>
      exact .inr ⟨_, _, _, true, by rw [exec, execNextBlock_valid hv, valid_again]; simpa using hv⟩
    | encrypt src dst => exact buffers src dst
    | decrypt src dst => exact buffers src dst
  · simp only [Bool.not_eq_true] at hv
    by_cases hi : IsConstruct i
    · cases i with
      | construct key nonce counter =>
        by_cases h : key.length < 32 ∨ nonce.length < 12
        · exact .inl ⟨.configurationError, by decide, execConstruct_short counter h⟩
        · exact .inr ⟨constructedS key nonce counter, s.KS, [], true,
            execConstruct_long counter (by omega) (by omega)⟩
      | resetSeq | nextBlock | encrypt | decrypt => exact hi.elim
    · exact .inl ⟨.notConfigured, by decide, exec_not_valid hv hi⟩

/-- A command neither reads nor writes the command port. -/
theorem exec_setCmdPort {i : Instr} {s t : State} (h : exec i s = .next t) (rest : Bytes) :
    exec i (s.setCmdPort rest) = .next (t.setCmdPort rest) := by
  cases i with
  | construct key nonce counter =>
    simp only [exec, execConstruct, complete, raise] at h ⊢
    split at h <;> simp_all <;> cases h <;> rfl
  | resetSeq seq =>
    simp only [exec, execResetSeq, requireVALID, complete, raise] at h ⊢
    split at h <;> simp_all <;> cases h <;> rfl
  | nextBlock =>
    simp only [exec, execNextBlock, requireVALID, complete, raise] at h ⊢
    split at h <;> simp_all <;> cases h <;> rfl
  | encrypt src dst =>
    simp only [exec, execEncrypt, streamXor, requireVALID, complete, raise] at h ⊢
    split at h <;> [split at h; skip] <;> simp_all <;> cases h <;> rfl
  | decrypt src dst =>
    simp only [exec, execDecrypt, streamXor, requireVALID, complete, raise] at h ⊢
    split at h <;> [split at h; skip] <;> simp_all <;> cases h <;> rfl

/-! ### What a step can do -/

/-- A step runs the frame at the front of the port, answers an illegal header, or is stuck. -/
theorem step_cases (s : State) :
    (∃ i rest, decode s.cmdPort = .command i rest ∧ step s = exec i (s.setCmdPort rest)) ∨
    (∃ h rest, decode s.cmdPort = .illegal h rest ∧
      step s = .next ((s.setCmdPort rest).answer .illegalCommand [])) ∨
    (decode s.cmdPort = .hold ∧ step s = .fault .awaitingFrame) := by
  unfold step fetch
  cases hd : decode s.cmdPort with
  | command i rest => exact .inl ⟨i, rest, rfl, rfl⟩
  | illegal h rest => exact .inr (.inl ⟨h, rest, rfl, rfl⟩)
  | hold => exact .inr (.inr ⟨rfl, rfl⟩)

end Sys2Proof.Machine
end

