-- ==== Sys2Proof/Laws/PerInstr.lean ====
section
/-! SUPPORT. Statements made of every instruction, one lemma a constructor. -/

namespace Sys2Proof.Laws

/-- The frame of a command has the length its format gives it (R63 to R66). -/
def FrameLength.Statement (i : Instr) : Prop := (encode i).length = frameLength i

theorem FrameLength.construct (key nonce : Bytes) (counter : Word) :
    FrameLength.Statement (.construct key nonce counter) := by
  simp [FrameLength.Statement, encode, encodeFields, putCounted, frameLength]; omega

theorem FrameLength.resetSeq (seq : Word64) : FrameLength.Statement (.resetSeq seq) := rfl

theorem FrameLength.nextBlock : FrameLength.Statement .nextBlock := rfl

theorem FrameLength.encrypt (src dst : Bytes) : FrameLength.Statement (.encrypt src dst) := by
  simp [FrameLength.Statement, encode, encodeFields, putCounted, frameLength]; omega

theorem FrameLength.decrypt (src dst : Bytes) : FrameLength.Statement (.decrypt src dst) := by
  simp [FrameLength.Statement, encode, encodeFields, putCounted, frameLength]; omega

end Sys2Proof.Laws
end

