-- ==== Sys2Proof/Laws/Ports.lean ====
section
/-! SUPPORT. Where the frames of a stream end, and that this does not depend on the pieces they arrive in or on the steps
taken meanwhile: the facts under R51's whole commands. -/

namespace Sys2Proof

/-! ### A decoded frame stands at the front of the stream and is the same whatever follows it -/

theorem decodedOrHold_eq_command {o : Option (Instr × Bytes)} {i : Instr} {rest : Bytes} :
    decodedOrHold o = .command i rest ↔ o = some (i, rest) := by
  cases o <;> simp [decodedOrHold, Prod.ext_iff]

theorem decodedOrHold_ne_illegal {o : Option (Instr × Bytes)} {h : Word} {rest : Bytes} :
    decodedOrHold o ≠ .illegal h rest := by
  cases o <;> simp [decodedOrHold]

theorem takeConstruct_front {stream rest : Bytes} {i : Instr} (h : takeConstruct stream = some (i, rest)) :
    ∃ fields, stream = fields ++ rest ∧ ∀ more, takeConstruct (fields ++ more) = some (i, more) := by
  obtain ⟨key, nonce, counter, rfl, rfl, hl⟩ := takeConstruct_eq_some.mp h
  exact ⟨_, rfl, fun _ => takeConstruct_eq_some.mpr ⟨key, nonce, counter, rfl, rfl, hl⟩⟩

theorem takeResetSeq_front {stream rest : Bytes} {i : Instr} (h : takeResetSeq stream = some (i, rest)) :
    ∃ fields, stream = fields ++ rest ∧ ∀ more, takeResetSeq (fields ++ more) = some (i, more) := by
  obtain ⟨⟨seq, r⟩, hq, e⟩ := Option.map_eq_some_iff.mp h
  obtain ⟨rfl, rfl⟩ := Prod.mk.inj e
  exact ⟨_, takeLe64_eq_some.mp hq, fun _ => Option.map_eq_some_iff.mpr ⟨_, takeLe64_eq_some.mpr rfl, rfl⟩⟩

theorem takeBuffers_front {f : (Bytes × Bytes) × Bytes → Instr × Bytes} {g : Bytes → Bytes → Instr}
    (hf : f = fun p => (g p.1.1 p.1.2, p.2)) {stream rest : Bytes} {i : Instr}
    (h : (takeBuffers stream).map f = some (i, rest)) :
    ∃ fields, stream = fields ++ rest ∧ ∀ more, (takeBuffers (fields ++ more)).map f = some (i, more) := by
  subst hf
  obtain ⟨⟨⟨src, dst⟩, r⟩, hp, e⟩ := Option.map_eq_some_iff.mp h
  obtain ⟨rfl, rfl⟩ := Prod.mk.inj e
  obtain ⟨rfl, hl⟩ := takeBuffers_eq_some.mp hp
  exact ⟨_, rfl, fun _ => Option.map_eq_some_iff.mpr ⟨_, takeBuffers_eq_some.mpr ⟨rfl, hl⟩, rfl⟩⟩

theorem decodeFields_front_command {h : Word} {stream rest : Bytes} {i : Instr}
    (hd : decodeFields h stream = .command i rest) :
    ∃ fields, stream = fields ++ rest ∧ ∀ more, decodeFields h (fields ++ more) = .command i more := by
  unfold decodeFields at hd ⊢
  split
  · rw [if_pos ‹_›, decodedOrHold_eq_command] at hd
    simpa only [decodedOrHold_eq_command] using takeConstruct_front hd
  rw [if_neg ‹_›] at hd; split
  · rw [if_pos ‹_›, decodedOrHold_eq_command] at hd
    simpa only [decodedOrHold_eq_command] using takeResetSeq_front hd
  rw [if_neg ‹_›] at hd; split
  · rw [if_pos ‹_›] at hd; cases hd; exact ⟨[], rfl, fun _ => rfl⟩
  rw [if_neg ‹_›] at hd; split
  · rw [if_pos ‹_›, decodedOrHold_eq_command] at hd
    simpa only [decodedOrHold_eq_command] using takeBuffers_front rfl hd
  rw [if_neg ‹_›] at hd; split
  · rw [if_pos ‹_›, decodedOrHold_eq_command] at hd
    simpa only [decodedOrHold_eq_command] using takeBuffers_front rfl hd
  · rw [if_neg ‹_›] at hd; cases hd

/-- An illegal header takes no fields (R69). -/
theorem decodeFields_front_illegal {h h' : Word} {stream rest : Bytes} (hd : decodeFields h stream = .illegal h' rest) :
    stream = rest ∧ ∀ more, decodeFields h more = .illegal h' more := by
  unfold decodeFields at hd ⊢
  split
  · rw [if_pos ‹_›] at hd; exact (decodedOrHold_ne_illegal hd).elim
  rw [if_neg ‹_›] at hd; split
  · rw [if_pos ‹_›] at hd; exact (decodedOrHold_ne_illegal hd).elim
  rw [if_neg ‹_›] at hd; split
  · rw [if_pos ‹_›] at hd; cases hd
  rw [if_neg ‹_›] at hd; split
  · rw [if_pos ‹_›] at hd; exact (decodedOrHold_ne_illegal hd).elim
  rw [if_neg ‹_›] at hd; split
  · rw [if_pos ‹_›] at hd; exact (decodedOrHold_ne_illegal hd).elim
  · rw [if_neg ‹_›] at hd; cases hd; exact ⟨rfl, fun _ => rfl⟩

/-- The frame that `dropFrame` takes off: it is at least a header long, and is taken off whatever follows it. -/
theorem dropFrame_front {stream rest : Bytes} (h : dropFrame stream = some rest) :
    ∃ frame, stream = frame ++ rest ∧ 4 ≤ frame.length ∧ ∀ more, dropFrame (frame ++ more) = some more := by
  rcases decode_cases stream with ⟨_, e⟩ | ⟨w, r, rfl, e⟩
  · simp [dropFrame, e] at h
  cases hd : decodeFields w r with
  | command i r' =>
    obtain rfl : r' = rest := by simpa [dropFrame, e, hd] using h
    obtain ⟨fields, rfl, k⟩ := decodeFields_front_command hd
    exact ⟨bytesLe32 w ++ fields, by simp, by simp, fun more => by
      rw [List.append_assoc, dropFrame, decode_header, k]⟩
  | illegal h' r' =>
    obtain rfl : r' = rest := by simpa [dropFrame, e, hd] using h
    obtain ⟨rfl, k⟩ := decodeFields_front_illegal hd
    exact ⟨bytesLe32 w, rfl, by simp, fun more => by rw [dropFrame, decode_header, k]⟩
  | hold => simp [dropFrame, e, hd] at h

/-- A frame that has arrived is not changed by the bytes that arrive after it. -/
theorem dropFrame_append {stream rest : Bytes} (h : dropFrame stream = some rest) (more : Bytes) :
    dropFrame (stream ++ more) = some (rest ++ more) := by
  obtain ⟨frame, rfl, _, k⟩ := dropFrame_front h
  rw [List.append_assoc, k]

theorem dropFrame_length {stream rest : Bytes} (h : dropFrame stream = some rest) : rest.length < stream.length := by
  obtain ⟨frame, rfl, hl, _⟩ := dropFrame_front h
  simp; omega

theorem dropFrame_eq_none {stream : Bytes} : dropFrame stream = none ↔ decode stream = .hold := by
  unfold dropFrame
  cases decode stream <;> simp

/-! ### The unfinished frame -/

/-- Allowing more frames than a stream has bytes takes off no more. -/
theorem afterFrames_enough {n : Nat} {stream : Bytes} (h : stream.length ≤ n) : afterFrames n stream = unfinished stream := by
  suffices ∀ m n (stream : Bytes), stream.length ≤ n → stream.length ≤ m → afterFrames n stream = afterFrames m stream from
    this _ _ _ h (Nat.le_refl _)
  intro m
  induction m with
  | zero =>
    intro n stream _ hm
    obtain rfl := List.length_eq_zero_iff.mp (Nat.le_zero.mp hm)
    cases n <;> rfl
  | succ m ih =>
    intro n stream hn hm
    cases hd : dropFrame stream with
    | none => cases n <;> simp [afterFrames, hd]
    | some rest =>
      have := dropFrame_length hd
      obtain ⟨n, rfl⟩ : ∃ k, n = k + 1 := ⟨n - 1, by omega⟩
      simpa [afterFrames, hd] using ih n rest (by omega) (by omega)

@[simp] theorem unfinished_nil : unfinished [] = [] := rfl

/-- A frame at the front is no part of the unfinished one. -/
theorem unfinished_of_some {stream rest : Bytes} (h : dropFrame stream = some rest) :
    unfinished stream = unfinished rest := by
  have hl := dropFrame_length h
  rw [← afterFrames_enough (n := stream.length + 1) (by omega), afterFrames]
  simp only [h]
  exact afterFrames_enough (by omega)

/-- A stream that holds no whole frame is unfinished whole. -/
theorem unfinished_of_none {stream : Bytes} (h : dropFrame stream = none) : unfinished stream = stream := by
  unfold unfinished
  cases stream.length <;> simp [afterFrames, h]

/-- A stream is its frames, one after the other, and the unfinished one. -/
theorem frames_then_unfinished (stream : Bytes) :
    ∃ frames : List Bytes, stream = frames.flatten ++ unfinished stream ∧ dropFrame (unfinished stream) = none ∧
      ∀ f ∈ frames, dropFrame f = some [] := by
  induction hn : stream.length using Nat.strongRecOn generalizing stream with
  | _ n ih =>
    cases hd : dropFrame stream with
    | none => exact ⟨[], by simp [unfinished_of_none hd], by rwa [unfinished_of_none hd], by simp⟩
    | some rest =>
      obtain ⟨frames, e, hu, hf⟩ := ih rest.length (hn ▸ dropFrame_length hd) rest rfl
      obtain ⟨frame, rfl, _, k⟩ := dropFrame_front hd
      rw [unfinished_of_some hd]
      refine ⟨frame :: frames, by simp [← e], hu, fun f hm => ?_⟩
      rcases List.mem_cons.mp hm with rfl | hm
      · simpa using k []
      · exact hf f hm

/-- Where the frames of a stream end does not depend on the pieces it arrives in. -/
theorem unfinished_append (stream more : Bytes) : unfinished (stream ++ more) = unfinished (unfinished stream ++ more) := by
  induction hn : stream.length using Nat.strongRecOn generalizing stream with
  | _ n ih =>
    cases hd : dropFrame stream with
    | none => rw [unfinished_of_none hd]
    | some rest =>
      rw [unfinished_of_some (dropFrame_append hd more), unfinished_of_some hd]
      exact ih rest.length (hn ▸ dropFrame_length hd) rest rfl

end Sys2Proof

namespace Sys2Proof.Machine

/-- A step consumes one frame off the front of the port, and leaves the host listened to as it was. -/
theorem step_port {s t : State} (h : step s = .next t) : dropFrame s.cmdPort = some t.cmdPort ∧ t.sender = s.sender := by
  rcases step_cases s with ⟨i, rest, hd, e⟩ | ⟨w, rest, hd, e⟩ | ⟨_, e⟩
  · rw [e] at h
    rcases exec_cases i (s.setCmdPort rest) with ⟨_, _, e'⟩ | ⟨_, _, _, _, e'⟩ <;>
      · rw [e'] at h; cases h; simp [dropFrame, hd]
  · rw [e] at h; cases h; simp [dropFrame, hd]
  · rw [e] at h; cases h

/-- A step leaves the unfinished frame, and so the hosts listened to, as they were. -/
theorem step_accepts {s t : State} (h : step s = .next t) (host : Nat) : t.accepts host = s.accepts host := by
  obtain ⟨hp, hs⟩ := step_port h
  rw [State.accepts, State.accepts, hs, unfinished_of_some hp]

end Sys2Proof.Machine
end

