-- ==== Sys2Proof/Tests/Slice0.lean ====
section
/-! SUPPORT. The model's own tests, with results from spec/ (95_test_vectors.md and the examples of the rules), and for every
statement with hypotheses a concrete case that meets them. -/

namespace Sys2Proof.Tests

open Sys2Proof.Machine

/-! ### Ill-formed commands are refused, by each check -/

theorem lengthFits_full (b : Bytes) (h : b.length = 2 ^ 32) : lengthFits b = false := by simp [lengthFits, h]

/-- A byte string one byte too long for a u32 length field (R6). -/
theorem tooLong_refused : lengthFits (zeros (2 ^ 32)) = false := lengthFits_full _ (zeros_length _)

theorem test_wellFormed_refuses_long_key : (Instr.construct (zeros (2 ^ 32)) [] 0).wellFormed = false := by
  rw [Instr.wellFormed, tooLong_refused]; rfl
theorem test_wellFormed_refuses_long_nonce : (Instr.construct [] (zeros (2 ^ 32)) 0).wellFormed = false := by
  rw [Instr.wellFormed, tooLong_refused]; rfl
theorem test_wellFormed_refuses_long_encrypt_src : (Instr.encrypt (zeros (2 ^ 32)) []).wellFormed = false := by
  rw [Instr.wellFormed, tooLong_refused]; rfl
theorem test_wellFormed_refuses_long_encrypt_dst : (Instr.encrypt [] (zeros (2 ^ 32))).wellFormed = false := by
  rw [Instr.wellFormed, tooLong_refused]; rfl
theorem test_wellFormed_refuses_long_decrypt_src : (Instr.decrypt (zeros (2 ^ 32)) []).wellFormed = false := by
  rw [Instr.wellFormed, tooLong_refused]; rfl
theorem test_wellFormed_refuses_long_decrypt_dst : (Instr.decrypt [] (zeros (2 ^ 32))).wellFormed = false := by
  rw [Instr.wellFormed, tooLong_refused]; rfl

/-! ### Decoding, on bytes written out from the spec's frames -/

/-- R63, with a two-byte key and a one-byte nonce. -/
theorem test_decode_construct :
    decode [0x01, 0, 0, 0, 0x02, 0, 0, 0, 0xaa, 0xbb, 0x01, 0, 0, 0, 0xcc, 0x78, 0x56, 0x34, 0x12, 0xee] =
      .command (.construct [0xaa, 0xbb] [0xcc] 0x12345678) [0xee] := by decide
/-- V-ENC-7. -/
theorem test_decode_resetSeq :
    decode [0x02, 0, 0, 0, 0x02, 0, 0, 0, 0x01, 0, 0, 0] = .command (.resetSeq 0x0000000100000002) [] := by decide
/-- V-ENC-6. -/
theorem test_decode_nextBlock : decode [0x03, 0, 0, 0] = .command .nextBlock [] := by decide
/-- R74. -/
theorem test_decode_encrypt :
    decode [0x04, 0, 0, 0, 0x02, 0, 0, 0, 0x41, 0x42, 0x03, 0, 0, 0, 0, 0, 0] =
      .command (.encrypt [0x41, 0x42] [0, 0, 0]) [] := by decide
/-- V-ENC-9. -/
theorem test_decode_decrypt :
    decode [0x05, 0, 0, 0, 0x05, 0, 0, 0, 0, 0, 0, 0, 0, 0x03, 0, 0, 0, 0, 0, 0] =
      .command (.decrypt [0, 0, 0, 0, 0] [0, 0, 0]) [] := by decide
/-- V-ENC-1 to V-ENC-5. -/
theorem test_decode_illegal :
    decode [0, 0, 0, 0] = .illegal 0x00000000 [] ∧ decode [0x06, 0, 0, 0] = .illegal 0x00000006 [] ∧
    decode [0x0f, 0, 0, 0] = .illegal 0x0000000f [] ∧ decode [0x13, 0, 0, 0] = .illegal 0x00000013 [] ∧
    decode [0x03, 0, 0, 0x80] = .illegal 0x80000003 [] := by decide
/-- V-ENC-8. -/
theorem test_decode_hold : decode [0x02, 0, 0, 0, 0x02, 0, 0] = .hold := by decide
/-- The opcode table's words after reset (log 13). -/
theorem test_decodeTableWord :
    decodeTableWord 32 1 = some (.construct [] [] 0) ∧ decodeTableWord 32 5 = some (.decrypt [] []) ∧
    decodeTableWord 32 6 = none := by decide
theorem test_withFetchWord_runs_from_reset :
    step (State.reset.withFetchWord 32 3) = exec .nextBlock State.reset := rfl
/-- R72. -/
theorem test_asmText : asmText (.encrypt [0x41, 0x42] [0x0f]) = "ENCRYPT src=[41 42], dst=[0f]" := by decide +kernel

/-! ### States -/

/-- Nonce N1 of 95_test_vectors.md. -/
def N1 : Bytes := [0x00, 0x00, 0x00, 0x09, 0x00, 0x00, 0x00, 0x4a, 0x00, 0x00, 0x00, 0x00]

/-- Nonce N2 of 95_test_vectors.md. -/
def N2 : Bytes := [0x00, 0x00, 0x00, 0x00, 0x00, 0x00, 0x00, 0x4a, 0x00, 0x00, 0x00, 0x00]

/-- V-SRC-9: key bytes(0x00..0x1f), nonce N1, counter 1. -/
def words : Vector Word 16 :=
  #v[0x61707865, 0x3320646e, 0x79622d32, 0x6b206574, 0x03020100, 0x07060504, 0x0b0a0908, 0x0f0e0d0c,
     0x13121110, 0x17161514, 0x1b1a1918, 0x1f1e1d1c, 0x00000001, 0x09000000, 0x4a000000, 0x00000000]

/-- A core with the instance `S` and nothing on its ports. -/
def holding (S : Vector Word 16) : State where
  S := S
  KS := Vector.replicate 64 0
  VALID := true
  cmdPort := []
  respPort := []
  sender := 0
  draw := 0

/-- The instance of V-SRC-9. -/
def sample : State := holding words

/-- A core without an instance. -/
def blank : State := (holding (Vector.replicate 16 0)).writeVALID false

/-- All-zero key and nonce, counter ffffffff (V-BLK-3, V-XOR-6). -/
def wrapping : State := holding (withCounter (constructedS (zeros 32) (zeros 12) 0) 0xffffffff)

/-- What a command's next state is, if there is one. -/
def after (i : Instr) (s : State) : Option State :=
  match exec i s with
  | .next t => some t
  | .fault _ => none
  | .refused _ => none

/-! ### Values of the rules and vectors -/

/-- V-QR-1, V-QR-4. -/
theorem test_quarterRound :
    QR 0x11111111 0x01020304 0x9b8d6f43 0x01234567 = (0xea2a92f4, 0xcb1cf8ce, 0x4581472e, 0x5881c4bb) ∧
    QR 0xffffffff 0xffffffff 0xffffffff 0xffffffff = (0xf0000ffd, 0x88790878, 0x0110fdef, 0x010ffdf0) := by
  decide +kernel
/-- V-DR-1. -/
theorem test_doubleRound :
    DR words = #v[0xcd52e917, 0x85ab03b4, 0xb3457395, 0xf96de7dd, 0xc4b7cd22, 0x5c2e187a, 0xc95eb461, 0x316c801a,
      0x7bf7d740, 0x7eddd644, 0xf1a1bdf5, 0x761246ca, 0x6b0d58a3, 0x6798471a, 0xd737f167, 0xf173888d] := by
  decide +kernel
/-- R82's example. -/
theorem test_construct_words :
    (after (.construct (ascendingBytes 0x00 0x1f) N1 1) blank).map (fun t => (t.S, t.VALID, t.respPort)) =
      some (words, true, [0, 0, 0, 0]) := by decide +kernel
/-- V-LD-2. -/
theorem test_construct_short_nonce_keeps_instance :
    after (.construct (zeros 32) (zeros 11) 0) sample = some { sample with respPort := [1, 0, 0, 0] } := by decide +kernel
/-- V-LD-4's start with V-LD-5's sequence number. -/
theorem test_resetSeq_words :
    (after (.resetSeq 0xffffffffffffffff) sample).map (fun t => (t.S[12], t.S[13], t.S[14], t.S[15])) =
      some (0x00000001, 0x09000000, 0xffffffff, 0xffffffff) := by decide +kernel
/-- V-LD-6. -/
theorem test_resetSeq_not_configured :
    after (.resetSeq 0x0000000100000002) blank = some { blank with respPort := [4, 0, 0, 0] } := by decide +kernel
/-- V-BLK-1. -/
theorem test_nextBlock_answers_block :
    (after .nextBlock sample).map (fun t => (t.respPort, t.S[12])) =
      some ([0, 0, 0, 0, 0x10, 0xf1, 0xe7, 0xe4, 0xd1, 0x3b, 0x59, 0x15, 0x50, 0x0f, 0xdd, 0x1f, 0xa3, 0x20, 0x71, 0xc4,
        0xc7, 0xd1, 0xf4, 0xc7, 0x33, 0xc0, 0x68, 0x03, 0x04, 0x22, 0xaa, 0x9a, 0xc3, 0xd4, 0x6c, 0x4e,
        0xd2, 0x82, 0x64, 0x46, 0x07, 0x9f, 0xaa, 0x09, 0x14, 0xc2, 0xd7, 0x05, 0xd9, 0x8b, 0x02, 0xa2,
        0xb5, 0x12, 0x9c, 0xd1, 0xde, 0x16, 0x4e, 0xb9, 0xcb, 0xd0, 0x83, 0xe8, 0xa2, 0x50, 0x3c, 0x4e], 0x00000002) := by
  decide +kernel
/-- V-XOR-4: bytes past the source come back unchanged. -/
theorem test_encrypt_long_destination :
    (after (.encrypt [0x41, 0x42] [0xee, 0xee, 0xee, 0xee, 0xee])
        (holding (constructedS (ascendingBytes 0x00 0x1f) N2 1))).map (fun t => (t.respPort, t.S[12])) =
      some ([0, 0, 0, 0, 0x02, 0, 0, 0, 0x63, 0x0d, 0xee, 0xee, 0xee], 0x00000002) := by decide +kernel
/-- V-XOR-6, by DECRYPT (R132): the second block is drawn at byte 64, past the counter's wrap. -/
theorem test_decrypt_wraps_inside_call :
    (after (.decrypt (zeros 65) (zeros 65)) wrapping).map (fun t => (t.respPort.drop 68, t.S[12], t.S[13])) =
      some ([0x23, 0xb5, 0x8b, 0x1d, 0x76], 0x00000001, 0x00000000) := by decide +kernel
/-- V-XOR-7. -/
theorem test_decrypt_not_configured :
    after (.decrypt [] []) blank = some { blank with respPort := [4, 0, 0, 0] } := by decide +kernel
/-- V-ENC-4: an illegal header is answered and nothing else happens. -/
theorem test_step_illegal_header :
    step { sample with cmdPort := [0x13, 0, 0, 0, 0x03] } =
      .next { sample with cmdPort := [0x03], respPort := [3, 0, 0, 0] } := rfl

/-- A frame cut short, after two whole ones, the first illegal (R69, R71, R178). -/
theorem test_unfinished : unfinished [0x14, 0, 0, 0, 0x03, 0, 0, 0, 0x02, 0, 0, 0, 0x05] = [0x02, 0, 0, 0, 0x05] := by decide
/-- Inside host 1's frame host 2 is not listened to (R51); at its end it is. -/
theorem test_hosts_take_turns :
    sendAll [(1, [0x03, 0]), (2, [0x02]), (1, [0, 0]), (2, [0x02])] sample =
      { sample with cmdPort := [0x03, 0, 0, 0, 0x02], sender := 2 } := rfl

/-! ### Witnesses: the hypotheses of each statement, met together -/

/-- `sample` with a NEXT_BLOCK frame, then the start of another frame, on the port. -/
def served : State := { sample with cmdPort := [0x03, 0, 0, 0, 0x02, 0] }

theorem witness_StepsKeepTheConstants : ConstantsHeld served ∧ served.VALID = true ∧ ∃ t, step served = .next t :=
  ⟨fun _ => ⟨rfl, rfl, rfl, rfl⟩, rfl, _, rfl⟩

/-- A run from reset in which a host builds an instance. -/
theorem witness_ReachableInstancesHaveTheirConstants : ∃ t, Reachable t ∧ t.VALID = true :=
  ⟨_, .step _ _ (.host _ (.send 0 (encode (.construct (zeros 32) (zeros 12) 0))) .reset) rfl, rfl⟩

theorem witness_ResetDiscardsPartialFrame :
    (Instr.resetSeq 5).wellFormed = true ∧ decode [0x02, 0, 0, 0, 0x02, 0, 0] = .hold := by decide
theorem witness_DecodeOfEncodeIsTheCommand :
    (Instr.construct (zeros 32) (zeros 12) 0xffffffff).wellFormed = true ∧ (Instr.encrypt [0x41] []).wellFormed = true := by
  decide
theorem witness_DecodedStreamIsTheEncoding :
    decode [0x05, 0, 0, 0, 0x01, 0, 0, 0, 0x41, 0, 0, 0, 0, 0x03] = .command (.decrypt [0x41] []) [0x03] := by decide
/-- Legal at 1 and 5, illegal just outside, and with the lowest and highest reserved bit set. -/
theorem witness_IllegalHeaderAnsweredAndConsumesFourBytes :
    let legal (h : Word) := h = 0x00000001 ∨ h = 0x00000002 ∨ h = 0x00000003 ∨ h = 0x00000004 ∨ h = 0x00000005
    legal 0x00000001 ∧ legal 0x00000005 ∧
    ¬ legal 0x00000000 ∧ ¬ legal 0x00000006 ∧ ¬ legal 0x00000011 ∧ ¬ legal 0x80000005 := by decide
/-- Cut before the first byte, inside the header, and before the last byte (V-ENC-8 ends earlier). -/
theorem witness_CutShortFrameWaitsForItsBytes :
    (Instr.resetSeq 0x0000000100000002).wellFormed = true ∧
    ∀ n ∈ [0, 3, 11], encode (.resetSeq 0x0000000100000002) =
        (encode (.resetSeq 0x0000000100000002)).take n ++ (encode (.resetSeq 0x0000000100000002)).drop n ∧
      (encode (.resetSeq 0x0000000100000002)).drop n ≠ [] := by decide
theorem witness_StepRunsTheDecodedCommand : decode served.cmdPort = .command .nextBlock [0x02, 0] := by decide
theorem witness_QueuedFramesServedInArrivalOrder :
    (Instr.resetSeq 5).wellFormed = true ∧ (Instr.encrypt [0x41, 0x42] [0]).wellFormed = true := by decide
theorem witness_CompleteFrameAlwaysAnswered :
    decode [0x04, 0, 0, 0, 0, 0, 0, 0, 0, 0, 0, 0] = .command (.encrypt [] []) [] := by decide
/-- A step that answers an error, and one that answers OK. -/
theorem witness_ErrorsLeaveTheInstanceUnchanged :
    step { sample with cmdPort := [0, 0, 0, 0] } = .next { sample with respPort := [3, 0, 0, 0] } ∧ ∃ t, step served = .next t :=
  ⟨rfl, _, rfl⟩
theorem witness_OnlyTheFiveResponseCodesAreSent : ∃ t, step served = .next t ∧ t.respPort.length = 68 :=
  ⟨_, rfl, by simp [served, sample, holding]⟩
theorem witness_ErrorPriorityOrder :
    ¬ ((0x00000014 : Word) = 0x00000001 ∨ (0x00000014 : Word) = 0x00000002 ∨ (0x00000014 : Word) = 0x00000003 ∨
      (0x00000014 : Word) = 0x00000004 ∨ (0x00000014 : Word) = 0x00000005) ∧
    blank.VALID = false ∧ sample.VALID = true ∧ (zeros 4).length < (zeros 5).length ∧
    (32 ≤ (zeros 32).length ∧ 12 ≤ (zeros 12).length) ∧
    ((zeros 31).length < 32 ∨ (zeros 12).length < 12) ∧ ((zeros 32).length < 32 ∨ (zeros 11).length < 12) := by decide
theorem witness_OnlyConstructSetsAndOnlyResetClearsVALID :
    (∃ t, exec .nextBlock sample = .next t) ∧ (∃ t, step served = .next t) ∧ served.VALID = true ∧
    blank.VALID = false ∧ ¬ IsConstruct .nextBlock := ⟨⟨_, rfl⟩, ⟨_, rfl⟩, rfl, rfl, id⟩
/-- One byte short of each length, and exactly the two lengths. -/
theorem witness_ConstructBuildsTheInstanceOrChangesNothing :
    ((zeros 31).length < 32 ∨ (zeros 12).length < 12) ∧ ((zeros 32).length < 32 ∨ (zeros 11).length < 12) ∧
    (32 ≤ (zeros 32).length ∧ 12 ≤ (zeros 12).length) := by decide
theorem witness_KeyAndNonceBytesAreLittleEndian : 32 ≤ (zeros 32).length ∧ 12 ≤ N1.length := by decide
theorem witness_ConstructIgnoresBytesPastKeyAndNonce : (zeros 32).length = 32 ∧ N1.length = 12 := by decide
theorem witness_ResetSeqWritesCounterAndLastNonceWords : sample.VALID = true ∧ blank.VALID = false := ⟨rfl, rfl⟩
theorem witness_ResetSeqNonceBytesAreTheSequenceNumber : sample.VALID = true := rfl
theorem witness_CommandsBeforeConstructAnswerNotConfigured : blank.VALID = false := rfl
theorem witness_RunsWithoutConstructKeepKeyAndFirstNonceWord :
    ∀ i ∈ [Instr.resetSeq 7, .nextBlock, .encrypt [0x41] [], .decrypt [] []], ¬ IsConstruct i := by simp [IsConstruct]
theorem witness_RepeatedSequenceNumberRepeatsTheKeystream :
    sample.VALID = true ∧ ∀ i ∈ [Instr.nextBlock, .encrypt [0x41] [0]], ¬ IsConstruct i := by simp [IsConstruct, sample, holding]
theorem witness_DoubleRoundOnTheGrid :
    0 < 4 ∧ 3 < 4 ∧ columnGroups.reverse.Perm columnGroups ∧ diagonalGroups.reverse.Perm diagonalGroups :=
  ⟨by decide, by decide, List.reverse_perm _, List.reverse_perm _⟩
theorem witness_BlockIsTenDoubleRoundsPlusInput : (0 < 16 ∧ 0 < 4) ∧ (15 < 16 ∧ 3 < 4) := by decide
theorem witness_NextBlockAnswersBlockAndAdvancesCounter :
    sample.VALID = true ∧ blank.VALID = false ∧ wrapping.VALID = true ∧ wrapping.S[12] = 0xFFFFFFFF := by decide +kernel
theorem witness_NextBlockUsesUpOneCounterValue : sample.VALID = true ∧ (zeros 65).length ≤ (zeros 65).length := by decide
/-- The empty source, equal lengths, and a longer destination. -/
theorem witness_StreamXorClosedForm :
    sample.VALID = true ∧ (zeros 0).length ≤ (zeros 0).length ∧ (zeros 65).length ≤ (zeros 65).length ∧
    (zeros 2).length ≤ (zeros 5).length := by decide
theorem witness_ShortDestinationRefusedBeforeAnyBlock :
    sample.VALID = true ∧ (zeros 4).length < (zeros 5).length ∧ (zeros 5).length = (zeros 5).length := by decide
theorem witness_ZeroLengthCallChangesNothing : sample.VALID = true ∧ blank.VALID = false := ⟨rfl, rfl⟩
/-- Two cores with the same S and different KS. -/
theorem witness_DecryptUndoesEncrypt :
    sample.VALID = true ∧ (sample.writeKS (Vector.replicate 64 0xff)).VALID = true ∧
    sample.S = (sample.writeKS (Vector.replicate 64 0xff)).S ∧ (zeros 65).length ≤ (zeros 65).length ∧
    (zeros 65).length ≤ (zeros 70).length := ⟨rfl, rfl, rfl, by decide, by decide⟩
/-- The 64 + 6 split of V-XOR-3, and an empty second part after any first. -/
theorem witness_SplitCallsJoinAtBlockBoundary :
    sample.VALID = true ∧ ((zeros 64).length % 64 = 0 ∨ zeros 6 = []) ∧ ((zeros 6).length % 64 = 0 ∨ zeros 0 = []) := by decide
/-- First parts of 1, 6 and 63 bytes (V-XOR-3 splits 6 + 64). -/
theorem witness_SplitCallsInsideABlockDrawAFreshBlock :
    sample.VALID = true ∧ (zeros 64).length = ((0 : Byte) :: zeros 63).length ∧
    (zeros 1).length % 64 ≠ 0 ∧ (zeros 6).length % 64 ≠ 0 ∧ (zeros 63).length % 64 ≠ 0 := by decide
theorem witness_PseudoInstructionsGiveKeystreamAndInPlaceXor :
    sample.VALID = true ∧ (zeros 3).length = ([0x41, 0x42, 0x43] : Bytes).length := by decide
/-- Cores that differ in KS, and cores without an instance that differ in S. -/
theorem witness_HostNeverSeesKSOrUnwrittenS :
    HostAlike sample (sample.writeKS (Vector.replicate 64 0xff)) ∧ HostAlike blank (blank.writeS words) ∧
    step blank = .fault .awaitingFrame ∧ ∃ t, step served = .next t :=
  ⟨⟨rfl, rfl, rfl, rfl, fun _ => rfl⟩, ⟨rfl, rfl, rfl, rfl, fun h => by cases h⟩, rfl, _, rfl⟩
theorem witness_SameConstructionSameAnswers : 32 ≤ (zeros 32).length ∧ 12 ≤ (zeros 12).length := by decide
/-- Host 1 sends a NEXT_BLOCK frame and three bytes of another; the core steps; host 2 is not listened to; host 1 goes on. -/
theorem witness_NoFrameMixesTwoHostsBytes :
    ∃ s, Heard [(1, [0x03, 0, 0, 0, 0x02, 0, 0]), (1, [0])] s ∧ s.cmdPort = [0x02, 0, 0, 0] ∧ s.sender = 1 :=
  ⟨_, .send 1 [0] (.send 2 [0x03] (.step (.send 1 [0x03, 0, 0, 0, 0x02, 0, 0] (.start sample rfl)) rfl)), rfl, rfl⟩
/-- Host 1's RESET_SEQ, then host 2's ENCRYPT before host 1's own (R179). -/
theorem witness_WholeCommandsOfHostsServedInAnyOrder :
    sample.cmdPort = [] ∧ ∀ c ∈ [(1, Instr.resetSeq 7), (2, .encrypt [0x41] [0]), (1, .encrypt [0x42] [0])],
      c.2.wellFormed = true := by decide
/-- Cut after the first byte and before the last. -/
theorem witness_UnfinishedFrameHoldsThePort :
    (Instr.resetSeq 5).wellFormed = true ∧ sample.cmdPort = [] ∧ (2 : Nat) ≠ 1 ∧
    ∀ n ∈ [1, 11], encode (.resetSeq 5) = (encode (.resetSeq 5)).take n ++ (encode (.resetSeq 5)).drop n ∧
      (encode (.resetSeq 5)).take n ≠ [] ∧ (encode (.resetSeq 5)).drop n ≠ [] := by decide
theorem witness_LatencyIgnoresSecretValues :
    (zeros 32).length = (ascendingBytes 0x00 0x1f).length ∧ N1.length = N2.length := by decide

end Sys2Proof.Tests
end

/-! ### State: the facts the statements of 10_state.md need

What a command answers and leaves, in one closed form: its response code, the words it leaves in S and its payload, each a
function of the command and of what it may read. KS is in none of them (R30). -/

namespace Sys2Proof.Machine

/-! #### A command's closed form -/

/-- The response code of a command in a core whose VALID is `valid` (R81, R136, R152). -/
def answerCode : Instr → Bool → RespCode
  | .construct key nonce _, _ => if key.length < 32 ∨ nonce.length < 12 then .configurationError else .ok
  | .resetSeq _, valid => if valid then .ok else .notConfigured
  | .nextBlock, valid => if valid then .ok else .notConfigured
  | .encrypt src dst, valid | .decrypt src dst, valid =>
    if valid then (if dst.length < src.length then .bufferSizeError else .ok) else .notConfigured

/-- The words of S after a command that answers OK (R82, R86, R106, R135). -/
def wordsAfter : Instr → Vector Word 16 → Vector Word 16
  | .construct key nonce counter, _ => constructedS key nonce counter
  | .resetSeq seq, S => resequencedS S seq
  | .nextBlock, S => advanceCounter S
  | .encrypt src _, S | .decrypt src _, S => withCounter S (S[12] + BitVec.ofNat 32 ((src.length + 63) / 64))

/-- The payload of a command that answers OK (R68). The kernel's output is the same from every KS (R30), so it is written
here from a zero one. -/
def payloadAfter : Instr → Vector Word 16 → Bytes
  | .construct _ _ _, _ => []
  | .resetSeq _, _ => []
  | .nextBlock, S => (BLOCK S).toList
  | .encrypt src dst, S | .decrypt src dst, S =>
    bytesLe32 (BitVec.ofNat 32 src.length) ++ (XORK src dst S (Vector.replicate 64 0)).out

/-- A CONSTRUCT with operands long enough answers OK (R81). -/
theorem answerCode_of_constructs {i : Instr} (h : Constructs i) (valid : Bool) : answerCode i valid = .ok := by
  cases i with
  | construct key nonce counter => obtain ⟨hk, hn⟩ := h; simp [answerCode, hk, hn]
  | resetSeq | nextBlock | encrypt | decrypt => exact h.elim

/-- While VALID is 0 only CONSTRUCT gets past the check of VALID (R152). -/
theorem answerCode_not_valid {i : Instr} (hi : ¬ IsConstruct i) : answerCode i false = .notConfigured := by
  cases i with
  | construct => exact absurd trivial hi
  | resetSeq | nextBlock | encrypt | decrypt => rfl

/-- A CONSTRUCT answers OK only with operands long enough (R81). -/
theorem constructs_of_ok {i : Instr} {valid : Bool} (hi : IsConstruct i) (ok : answerCode i valid = .ok) :
    Constructs i := by
  cases i with
  | construct key nonce counter => simpa [answerCode, Constructs] using ok
  | resetSeq | nextBlock | encrypt | decrypt => exact hi.elim

/-- Another command answers OK only while VALID is 1 (R152). -/
theorem valid_of_ok {i : Instr} {valid : Bool} (hi : ¬ IsConstruct i) (ok : answerCode i valid = .ok) :
    valid = true := by
  cases valid with
  | true => rfl
  | false => rw [answerCode_not_valid hi] at ok; cases ok

theorem valid_or_constructs_of_ok {i : Instr} {valid : Bool} (ok : answerCode i valid = .ok) :
    valid = true ∨ Constructs i := by
  by_cases hi : IsConstruct i
  · exact .inr (constructs_of_ok hi ok)
  · exact .inl (valid_of_ok hi ok)

/-- A command with another code than OK only answers it (R151). -/
theorem exec_of_error {i : Instr} {s : State} (err : answerCode i s.VALID ≠ .ok) :
    exec i s = .next (s.answer (answerCode i s.VALID) []) := by
  by_cases hi : IsConstruct i
  · cases i with
    | construct key nonce counter =>
      have short : key.length < 32 ∨ nonce.length < 12 := by by_contra h; exact err (if_neg h)
      rw [answerCode, if_pos short]
      exact execConstruct_short counter short
    | resetSeq | nextBlock | encrypt | decrypt => exact hi.elim
  · cases hv : s.VALID with
    | false => rw [answerCode_not_valid hi]; exact exec_not_valid hv hi
    | true =>
      rw [hv] at err
      cases i with
      | construct => exact absurd trivial hi
      | resetSeq | nextBlock => exact absurd rfl err
      | encrypt src dst | decrypt src dst =>
        have short : dst.length < src.length := by by_contra h; exact err (if_neg h)
        rw [answerCode, if_pos rfl, if_pos short]
        exact streamXor_short hv short

/-- Setting VALID where it is set changes nothing. -/
theorem writeVALID_true_of_valid {s : State} (h : s.VALID = true) : s.writeVALID true = s := by
  rw [← h]; rfl

/-- ENCRYPT and DECRYPT that answer OK, in the closed form. -/
theorem streamXor_of_ok {src dst : Bytes} {s : State} (hv : s.VALID = true) (hl : src.length ≤ dst.length) :
    ∃ block, streamXor src dst s =
      .next ((((s.writeS (wordsAfter (.encrypt src dst) s.S)).writeKS block).writeVALID true).answer .ok
        (payloadAfter (.encrypt src dst) s.S)) := by
  have hS : (XORK src dst s.S s.KS).S = wordsAfter (.encrypt src dst) s.S := by
    simpa [wordsAfter, XORK] using xorFrom_S src dst hl 0 s.S s.KS
  obtain ⟨hout, _⟩ := XORK_ignores_KS src dst hl s.S s.KS (Vector.replicate 64 0)
  refine ⟨(XORK src dst s.S s.KS).KS, ?_⟩
  rw [streamXor_valid hv hl, writeVALID_true_of_valid (by simpa using hv), hS, hout, payloadAfter]

/-- A command that answers OK sets VALID, leaves the words of `wordsAfter` in S, answers `payloadAfter`, and writes nothing
else but KS. -/
theorem exec_of_ok {i : Instr} {s : State} (ok : answerCode i s.VALID = .ok) :
    ∃ block, exec i s =
      .next ((((s.writeS (wordsAfter i s.S)).writeKS block).writeVALID true).answer .ok (payloadAfter i s.S)) := by
  cases i with
  | construct key nonce counter =>
    obtain ⟨hk, hn⟩ := constructs_of_ok (i := .construct key nonce counter) trivial ok
    exact ⟨s.KS, execConstruct_long counter hk hn⟩
  | resetSeq seq =>
    have hv := valid_of_ok id ok
    exact ⟨s.KS, by rw [writeVALID_true_of_valid (by simpa using hv)]; exact execResetSeq_valid seq hv⟩
  | nextBlock =>
    have hv := valid_of_ok id ok
    exact ⟨BLOCK s.S, by rw [writeVALID_true_of_valid (by simpa using hv)]; exact execNextBlock_valid hv⟩
  | encrypt src dst | decrypt src dst =>
    have hv := valid_of_ok id ok
    have hl : src.length ≤ dst.length := by by_contra h; simp [answerCode, hv, Nat.not_le.mp h] at ok
    exact streamXor_of_ok hv hl

/-! #### The words a command leaves -/

/-- Commands other than CONSTRUCT write S[12], S[14] and S[15] at most (R25). -/
theorem wordsAfter_other {i : Instr} (hi : ¬ IsConstruct i) (S : Vector Word 16) {j : Nat} (hj : j < 16)
    (h12 : j ≠ 12) (h14 : j ≠ 14) (h15 : j ≠ 15) : (wordsAfter i S)[j] = S[j] := by
  cases i with
  | construct => exact absurd trivial hi
  | resetSeq seq => exact resequencedS_other S seq hj h12 h14 h15
  | nextBlock | encrypt | decrypt => exact withCounter_other S _ hj h12

/-- What a command that answers OK leaves and answers depends on S only while VALID is 1 (R33). -/
theorem afterOk_eq_of_alike {i : Instr} {valid : Bool} {S S' : Vector Word 16} (ok : answerCode i valid = .ok)
    (hS : valid = true → S = S') : wordsAfter i S = wordsAfter i S' ∧ payloadAfter i S = payloadAfter i S' := by
  rcases valid_or_constructs_of_ok ok with hv | hc
  · rw [hS hv]; exact ⟨rfl, rfl⟩
  · cases i with
    | construct => exact ⟨rfl, rfl⟩
    | resetSeq | nextBlock | encrypt | decrypt => exact hc.elim

/-- A command other than CONSTRUCT completes, and keeps VALID and all words of S but S[12], S[14] and S[15]. -/
theorem exec_without_construct {i : Instr} (hi : ¬ IsConstruct i) (s : State) :
    ∃ t, exec i s = .next t ∧ t.VALID = s.VALID ∧
      ∀ (j : Nat) (_ : j < 16), j ≠ 12 → j ≠ 14 → j ≠ 15 → t.S[j] = s.S[j] := by
  by_cases ok : answerCode i s.VALID = .ok
  · have hv := valid_of_ok hi ok
    obtain ⟨block, e⟩ := exec_of_ok ok
    exact ⟨_, e, hv.symm, fun j hj => wordsAfter_other hi s.S hj⟩
  · exact ⟨_, exec_of_error ok, rfl, fun _ _ _ _ _ => rfl⟩

/-- A run of commands without a CONSTRUCT keeps what each of them keeps. -/
theorem runCommands_without_construct (commands : List Instr) (s : State) (hc : ∀ i ∈ commands, ¬ IsConstruct i) :
    ∃ t, runCommands commands s = .next t ∧ t.VALID = s.VALID ∧
      ∀ (j : Nat) (_ : j < 16), j ≠ 12 → j ≠ 14 → j ≠ 15 → t.S[j] = s.S[j] := by
  induction commands generalizing s with
  | nil => exact ⟨s, rfl, rfl, fun _ _ _ _ _ => rfl⟩
  | cons i later ih =>
    obtain ⟨hi, hlater⟩ := List.forall_mem_cons.mp hc
    obtain ⟨u, eu, hVu, hSu⟩ := exec_without_construct hi s
    obtain ⟨t, et, hVt, hSt⟩ := ih u hlater
    exact ⟨t, by rw [runCommands, eu]; exact et, hVt.trans hVu,
      fun j hj h12 h14 h15 => (hSt j hj h12 h14 h15).trans (hSu j hj h12 h14 h15)⟩

/-! #### VALID -/

/-- VALID after a command: set by a CONSTRUCT with operands long enough, else as before (R27). -/
theorem exec_VALID_iff {i : Instr} {s t : State} (e : exec i s = .next t) :
    t.VALID = true ↔ s.VALID = true ∨ Constructs i := by
  by_cases ok : answerCode i s.VALID = .ok
  · obtain ⟨block, e'⟩ := exec_of_ok ok
    cases e'.symm.trans e
    exact iff_of_true rfl (valid_or_constructs_of_ok ok)
  · cases (exec_of_error ok).symm.trans e
    have hi : ¬ Constructs i := fun h => ok (answerCode_of_constructs h _)
    simp [hi]

/-- No step clears VALID (R27). -/
theorem step_keeps_VALID {s t : State} (e : step s = .next t) (hv : s.VALID = true) : t.VALID = true := by
  rcases step_cases s with ⟨i, rest, _, es⟩ | ⟨w, rest, _, es⟩ | ⟨_, es⟩ <;> rw [es] at e
  · exact (exec_VALID_iff e).mpr (.inl hv)
  · cases e; exact hv
  · cases e

@[simp] theorem hostAct_receive_S (n : Nat) (s : State) : (hostAct (.receive n) s).S = s.S := rfl
@[simp] theorem hostAct_receive_VALID (n : Nat) (s : State) : (hostAct (.receive n) s).VALID = s.VALID := rfl

/-! #### The constants -/

/-- ConstantsHeld reads S and VALID only. -/
theorem ConstantsHeld.congr {s t : State} (h : ConstantsHeld s) (hS : t.S = s.S) (hV : t.VALID = s.VALID) :
    ConstantsHeld t := by
  unfold ConstantsHeld
  rw [hS, hV]
  exact h

/-- While VALID is 0 there is nothing to hold. -/
theorem constantsHeld_of_not_valid {s : State} (hv : s.VALID = false) : ConstantsHeld s := fun h => by
  rw [hv] at h; cases h

/-- A command keeps the constants: CONSTRUCT writes them (R82), the others do not write words 0 to 3 (R25). -/
theorem exec_keeps_constants {i : Instr} {s t : State} (h : ConstantsHeld s) (e : exec i s = .next t) :
    ConstantsHeld t := by
  by_cases hi : IsConstruct i
  · by_cases ok : answerCode i s.VALID = .ok
    · obtain ⟨block, e'⟩ := exec_of_ok ok
      cases e'.symm.trans e
      cases i with
      | construct => exact fun _ => ⟨rfl, rfl, rfl, rfl⟩
      | resetSeq | nextBlock | encrypt | decrypt => exact hi.elim
    · cases (exec_of_error ok).symm.trans e
      exact h.congr rfl rfl
  · obtain ⟨t', e', hV, hS⟩ := exec_without_construct hi s
    cases e'.symm.trans e
    intro hv
    have word (j : Nat) (hj : j < 4) : t.S[j] = s.S[j] := hS j (by omega) (by omega) (by omega) (by omega)
    rw [word 0 (by omega), word 1 (by omega), word 2 (by omega), word 3 (by omega)]
    exact h (hV ▸ hv)

/-- A step keeps the constants. -/
theorem step_keeps_constants {s t : State} (h : ConstantsHeld s) (e : step s = .next t) : ConstantsHeld t := by
  rcases step_cases s with ⟨i, rest, _, es⟩ | ⟨w, rest, _, es⟩ | ⟨_, es⟩ <;> rw [es] at e
  · exact exec_keeps_constants (s := s.setCmdPort rest) (h.congr rfl rfl) e
  · cases e; exact h.congr rfl rfl
  · cases e

/-- An act of a host keeps the constants: a delivery and a receipt leave S and VALID, a reset clears VALID. -/
theorem hostAct_keeps_constants (a : HostAction) {s : State} (h : ConstantsHeld s) : ConstantsHeld (hostAct a s) := by
  cases a with
  | send host bytes => exact h.congr (hostAct_send_S ..) (hostAct_send_VALID ..)
  | receive n => exact h.congr rfl rfl
  | reset => exact constantsHeld_of_not_valid rfl

/-! #### What a host cannot tell apart -/

/-- Alike cores stay alike when the same bytes are left on their command ports. -/
theorem HostAlike.setCmdPort {s t : State} (h : HostAlike s t) (rest : Bytes) :
    HostAlike (s.setCmdPort rest) (t.setCmdPort rest) := by
  obtain ⟨hvalid, _, hsender, hresp, hS⟩ := h
  exact ⟨hvalid, rfl, hsender, hresp, hS⟩

/-- Alike cores stay alike when they answer the same. -/
theorem HostAlike.answer {s t : State} (h : HostAlike s t) (code : RespCode) (payload : Bytes) :
    HostAlike (s.answer code payload) (t.answer code payload) := by
  obtain ⟨hvalid, hcmd, hsender, hresp, hS⟩ := h
  exact ⟨hvalid, hcmd, hsender, by simp [hresp], hS⟩

/-- Alike cores stay alike when a command leaves the same words in both, whatever block it leaves in KS. -/
theorem HostAlike.writeInstance {s t : State} (h : HostAlike s t) (words : Vector Word 16) (block block' : Vector Byte 64) :
    HostAlike (((s.writeS words).writeKS block).writeVALID true) (((t.writeS words).writeKS block').writeVALID true) := by
  obtain ⟨_, hcmd, hsender, hresp, _⟩ := h
  exact ⟨rfl, hcmd, hsender, hresp, fun _ => rfl⟩

/-- A command answers the same in alike cores and leaves them alike. -/
theorem exec_alike {i : Instr} {s t : State} (h : HostAlike s t) :
    ∃ s' t', exec i s = .next s' ∧ exec i t = .next t' ∧ HostAlike s' t' := by
  have ⟨hvalid, _, _, _, hS⟩ := h
  by_cases ok : answerCode i s.VALID = .ok
  · obtain ⟨block, es⟩ := exec_of_ok ok
    obtain ⟨block', et⟩ := exec_of_ok (hvalid ▸ ok : answerCode i t.VALID = .ok)
    obtain ⟨hwords, hpayload⟩ := afterOk_eq_of_alike ok hS
    rw [hwords, hpayload] at es
    exact ⟨_, _, es, et, (h.writeInstance _ _ _).answer _ _⟩
  · have et := exec_of_error (hvalid ▸ ok : answerCode i t.VALID ≠ .ok)
    rw [← hvalid] at et
    exact ⟨_, _, exec_of_error ok, et, h.answer _ _⟩

/-- A host's delivery is taken by both of two alike cores, or by neither. -/
theorem HostAlike.accepts_eq {s t : State} (h : HostAlike s t) (host : Nat) : s.accepts host = t.accepts host := by
  obtain ⟨_, hcmd, hsender, _, _⟩ := h
  rw [State.accepts, State.accepts, hcmd, hsender]

theorem step_of_command {s : State} {i : Instr} {rest : Bytes} (hd : decode s.cmdPort = .command i rest) :
    step s = exec i (s.setCmdPort rest) := by rw [step, fetch, hd]

theorem step_of_illegal {s : State} {w : Word} {rest : Bytes} (hd : decode s.cmdPort = .illegal w rest) :
    step s = .next ((s.setCmdPort rest).answer .illegalCommand []) := by rw [step, fetch, hd]; rfl

theorem step_of_hold {s : State} (hd : decode s.cmdPort = .hold) : step s = .fault .awaitingFrame := by
  rw [step, fetch, hd]

/-- Two alike cores both answer a next state, and stay alike, or both wait for a frame. -/
theorem step_alike {s t : State} (h : HostAlike s t) :
    (∃ s' t', step s = .next s' ∧ step t = .next t' ∧ HostAlike s' t') ∨
    (step s = .fault .awaitingFrame ∧ step t = .fault .awaitingFrame) := by
  have ⟨_, hcmd, _, _, _⟩ := h
  rcases step_cases s with ⟨i, rest, hd, es⟩ | ⟨w, rest, hd, es⟩ | ⟨hd, es⟩ <;> rw [hcmd] at hd
  · left
    rw [es, step_of_command hd]
    exact exec_alike (h.setCmdPort rest)
  · exact .inl ⟨_, _, es, step_of_illegal hd, (h.setCmdPort rest).answer _ _⟩
  · exact .inr ⟨es, step_of_hold hd⟩

/-- An act of a host leaves alike cores alike. -/
theorem hostAct_alike (a : HostAction) {s t : State} (h : HostAlike s t) : HostAlike (hostAct a s) (hostAct a t) := by
  have haccepts := h.accepts_eq
  obtain ⟨hvalid, hcmd, hsender, hresp, hS⟩ := h
  cases a with
  | send host bytes =>
    cases ha : s.accepts host with
    | true =>
      rw [hostAct_send_accepted s _ _ ha, hostAct_send_accepted t _ _ (haccepts host ▸ ha)]
      exact ⟨hvalid, by simp [hcmd], rfl, hresp, hS⟩
    | false =>
      rw [hostAct_send_held s _ _ ha, hostAct_send_held t _ _ (haccepts host ▸ ha)]
      exact ⟨hvalid, hcmd, hsender, hresp, hS⟩
  | receive n => exact ⟨hvalid, hcmd, hsender, by simp [hresp], hS⟩
  | reset => exact ⟨rfl, rfl, rfl, rfl, fun hv => by cases hv⟩

/-- A host reads the same off the response ports of alike cores. -/
theorem hostReads_alike (a : HostAction) {s t : State} (h : HostAlike s t) : hostReads a s = hostReads a t := by
  obtain ⟨_, _, _, hresp, _⟩ := h
  cases a with
  | receive n => simp only [hostReads, hresp]
  | send | reset => rfl

/-! #### The statements of 10_state.md -/

/-- Settles O3: a command, an illegal header's answer and each act of a host keep the constants. -/
theorem stepsKeepTheConstants : Obligations.StepsKeepTheConstants :=
  fun _ h => ⟨fun _ e => step_keeps_constants h e, fun a => hostAct_keeps_constants a h⟩

/-- Settles O44: a step reads the command port, VALID and, while VALID is 1, S; KS enters neither the answer nor S. -/
theorem hostNeverSeesKSOrUnwrittenS : Obligations.HostNeverSeesKSOrUnwrittenS := by
  intro s t h
  refine ⟨fun s' es => ?_, fun r es => ?_, fun a => ⟨hostAct_alike a h, hostReads_alike a h⟩⟩
  · rcases step_alike h with ⟨s'', t', es', et, h'⟩ | ⟨es', _⟩
    · cases es'.symm.trans es
      exact ⟨t', et, h'⟩
    · cases es'.symm.trans es
  · rcases step_alike h with ⟨_, _, es', _, _⟩ | ⟨es', et⟩
    · cases es'.symm.trans es
    · cases es'.symm.trans es
      exact et

/-- Settles O2: reset clears VALID. -/
theorem resetMeetsConstantsInvariant : Obligations.ResetMeetsConstantsInvariant :=
  ⟨constantsHeld_of_not_valid rfl, fun _ => constantsHeld_of_not_valid rfl⟩

/-- Settles O4, by induction on the run: O2 at reset, O3 for each step and act. -/
theorem reachableInstancesHaveTheirConstants : Obligations.ReachableInstancesHaveTheirConstants := by
  intro s hs
  induction hs with
  | reset => exact resetMeetsConstantsInvariant.1
  | step s s' _ e ih => exact (stepsKeepTheConstants s ih).1 s' e
  | host s a _ ih => exact (stepsKeepTheConstants s ih).2 a

/-- Settles O19: the response code says which of the closed form's two cases it is. -/
theorem writersOfTheStateWords : Obligations.WritersOfTheStateWords := by
  intro i s
  by_cases ok : answerCode i s.VALID = .ok
  · obtain ⟨block, e⟩ := exec_of_ok ok
    refine ⟨_, .ok, payloadAfter i s.S, e, rfl, fun h => absurd rfl h, fun _ => ?_⟩
    cases i with
    | construct key nonce counter =>
      exact ⟨rfl, rfl, rfl, rfl, fun k hk => constructedS_key key nonce counter hk, rfl,
        fun k hk => constructedS_nonce key nonce counter hk⟩
    | resetSeq seq =>
      exact ⟨fun j hj => resequencedS_other s.S seq hj, resequencedS_counter s.S seq, resequencedS_low s.S seq,
        resequencedS_high s.S seq⟩
    | nextBlock | encrypt | decrypt => exact ⟨fun j hj => withCounter_other s.S _ hj, withCounter_counter s.S _⟩
  · exact ⟨_, answerCode i s.VALID, [], exec_of_error ok, rfl, fun _ => rfl, fun h => absurd h ok⟩

/-- Settles O20: VALID after commands, steps and acts of hosts, and the answer while VALID is 0. -/
theorem onlyConstructSetsAndOnlyResetClearsVALID : Obligations.OnlyConstructSetsAndOnlyResetClearsVALID :=
  ⟨fun _ _ _ e => exec_VALID_iff e, fun _ _ e hv => step_keeps_VALID e hv,
    fun s host bytes _ => ⟨hostAct_send_VALID s host bytes, rfl, rfl⟩, fun _ _ hv hi => exec_not_valid hv hi⟩

/-- Settles O27, by induction on the commands. -/
theorem runsWithoutConstructKeepKeyAndFirstNonceWord : Obligations.RunsWithoutConstructKeepKeyAndFirstNonceWord := by
  intro commands s hc
  obtain ⟨t, e, hV, hS⟩ := runCommands_without_construct commands s hc
  exact ⟨t, e, hV, hS 13 (by omega) (by omega) (by omega) (by omega),
    fun j hj => hS j (by omega) (by omega) (by omega) (by omega)⟩

/-- Settles O1: the empty command port holds no frame. -/
theorem resetLeavesIdleCoreWithoutInstance : Obligations.ResetLeavesIdleCoreWithoutInstance :=
  ⟨⟨rfl, rfl, rfl, step_of_hold rfl⟩, fun _ => ⟨rfl, rfl, rfl, step_of_hold rfl⟩⟩

end Sys2Proof.Machine

/-! ### Memory: the facts the statements of 20_memory.md need

The orders of bytes in words and blocks (R42 to R44), and whole frames on the command port: a command's frame decodes to it
whatever follows, and no part of it is a frame, so the port can tell where each host's frames end (R50, R51). -/

namespace Sys2Proof

/-! #### Whole frames -/

/-- The frame of a well-formed command decodes to the command, and leaves what follows it (R70). -/
theorem decode_encode_append {i : Instr} (hw : i.wellFormed = true) (rest : Bytes) :
    decode (encode i ++ rest) = .command i rest := by
  rw [encode, List.append_assoc, decode_header]
  cases i with
  | construct key nonce counter =>
    obtain ⟨hkey, hnonce⟩ := Bool.and_eq_true_iff.mp hw
    exact decodedOrHold_eq_command.mpr (takeConstruct_eq_some.mpr ⟨key, nonce, counter, rfl, rfl, hkey, hnonce⟩)
  | resetSeq seq =>
    have hread : takeResetSeq (bytesLe64 seq ++ rest) = some (.resetSeq seq, rest) :=
      Option.map_eq_some_iff.mpr ⟨(seq, rest), takeLe64_eq_some.mpr rfl, rfl⟩
    exact decodedOrHold_eq_command.mpr hread
  | nextBlock => rfl
  | encrypt src dst | decrypt src dst =>
    have hread : takeBuffers (putCounted src ++ putCounted dst ++ rest) = some ((src, dst), rest) :=
      takeBuffers_eq_some.mpr ⟨rfl, Bool.and_eq_true_iff.mp hw⟩
    exact decodedOrHold_eq_command.mpr (Option.map_eq_some_iff.mpr ⟨((src, dst), rest), hread, rfl⟩)

/-- What follows the last frame of a stream is no whole frame. -/
theorem dropFrame_unfinished (stream : Bytes) : dropFrame (unfinished stream) = none := by
  obtain ⟨_, _, hnone, _⟩ := frames_then_unfinished stream
  exact hnone

end Sys2Proof

namespace Sys2Proof.Machine

theorem isFrame_encode {i : Instr} (hw : i.wellFormed = true) : IsFrame (encode i) := by
  have hd := decode_encode_append hw []
  rw [List.append_nil] at hd
  rw [IsFrame, dropFrame, hd]

theorem IsFrame.unfinished_eq_nil {frame : Bytes} (hf : IsFrame frame) : unfinished frame = [] :=
  unfinished_of_some hf

/-- A frame cut short holds no whole frame (R71). -/
theorem IsFrame.dropFrame_piece {piece missing : Bytes} (hf : IsFrame (piece ++ missing)) (hm : missing ≠ []) :
    dropFrame piece = none := by
  cases hd : dropFrame piece with
  | none => rfl
  | some rest =>
    have hrest : rest ++ missing = [] := Option.some.inj ((dropFrame_append hd missing).symm.trans hf)
    exact absurd (List.append_eq_nil_iff.mp hrest).2 hm

/-! #### Commands taken off the port -/

/-- A step runs the command whose frame is at the front of the port. -/
theorem step_of_encode {i : Instr} {s : State} {rest : Bytes} (hw : i.wellFormed = true)
    (hp : s.cmdPort = encode i ++ rest) : step s = exec i (s.setCmdPort rest) :=
  step_of_command (hp ▸ decode_encode_append hw rest)

/-- A command answers a next state with one response frame more, and leaves the command port. -/
theorem exec_responds (i : Instr) (s : State) :
    ∃ t code payload, exec i s = .next t ∧ t.cmdPort = s.cmdPort ∧ t.respPort = s.respPort ++ respond code payload := by
  rcases exec_cases i s with ⟨code, _, e⟩ | ⟨_, _, payload, _, e⟩
  · exact ⟨_, code, [], e, rfl, rfl⟩
  · exact ⟨_, .ok, payload, e, rfl, rfl⟩

theorem respond_ne_nil (code : RespCode) (payload : Bytes) : respond code payload ≠ [] := by
  simp [respond, bytesLe32]

/-- Steps on a port that holds the frames of commands execute the commands one after the other (R50). -/
theorem steps_of_encodes {commands : List Instr} (hw : ∀ i ∈ commands, i.wellFormed = true) {s : State}
    (hp : s.cmdPort = commands.flatMap encode) :
    ∃ t, steps commands.length s = .next t ∧ runCommands commands (s.setCmdPort []) = .next t := by
  induction commands generalizing s with
  | nil =>
    have hs : s.setCmdPort [] = s := by rw [← show s.cmdPort = [] from hp, setCmdPort_self]
    exact ⟨s, rfl, congrArg Host.Outcome.next hs⟩
  | cons i later ih =>
    obtain ⟨hi, hlater⟩ := List.forall_mem_cons.mp hw
    obtain ⟨u, _, _, hexec, hport, _⟩ := exec_responds i (s.setCmdPort (later.flatMap encode))
    obtain ⟨t, hsteps, hrun⟩ := ih hlater hport
    have hstep : step s = .next u := (step_of_encode hi hp).trans hexec
    have hexec' : exec i (s.setCmdPort []) = .next (u.setCmdPort []) := exec_setCmdPort hexec []
    refine ⟨t, ?_, ?_⟩
    · rw [List.length_cons, steps, hstep]; exact hsteps
    · rw [runCommands, hexec']; exact hrun

/-! #### Deliveries -/

@[simp] theorem takeFrom_takeFrom (s : State) (host host' : Nat) (bytes bytes' : Bytes) :
    (s.takeFrom host bytes).takeFrom host' bytes' = s.takeFrom host' (bytes ++ bytes') := by
  simp [State.takeFrom]

/-- Once what an empty port took is consumed, only the host listened to has changed. -/
theorem takeFrom_consumed {s : State} (hp : s.cmdPort = []) (host : Nat) (bytes : Bytes) :
    (s.takeFrom host bytes).setCmdPort [] = { s with sender := host } := by
  rw [← hp]; rfl

/-- A port at a frame boundary takes whole frames of any hosts, and is at a frame boundary after each (R51). -/
theorem sendAll_frames {sends : List (Nat × Bytes)} (hf : ∀ d ∈ sends, IsFrame d.2) {s : State}
    (hu : unfinished s.cmdPort = []) : ∃ host, sendAll sends s = s.takeFrom host (sends.flatMap (·.2)) := by
  induction sends generalizing s with
  | nil => exact ⟨s.sender, by simp [sendAll, State.takeFrom]⟩
  | cons d later ih =>
    obtain ⟨hd, hlater⟩ := List.forall_mem_cons.mp hf
    have hboundary : unfinished (s.takeFrom d.1 d.2).cmdPort = [] := by
      rw [takeFrom_cmdPort, unfinished_append, hu, List.nil_append, hd.unfinished_eq_nil]
    obtain ⟨host, hlast⟩ := ih hlater hboundary
    rw [takeFrom_takeFrom] at hlast
    refine ⟨host, ?_⟩
    rw [sendAll, List.foldl_cons, hostAct_send_accepted s _ _ ((accepts_iff s d.1).mpr (.inl hu))]
    exact hlast

/-! #### The account of a run's deliveries -/

theorem piecesOf_append (host : Nat) (pieces later : List (Nat × Bytes)) :
    piecesOf host (pieces ++ later) = piecesOf host pieces ++ piecesOf host later := by
  simp [piecesOf]

/-- Pieces that are all one host's are all that host's, and nothing another's. -/
theorem piecesOf_map_pair (host sender : Nat) (pieces : List Bytes) :
    piecesOf host (pieces.map (sender, ·)) = if sender = host then pieces.flatten else [] := by
  by_cases h : sender = host <;> simp [piecesOf, List.filter_map, Function.comp_def, List.flatMap_map, h]

/-- The account of the deliveries a port took (R51): the frames that steps consumed, the frames that wait on the port, and
the unfinished frame of the host listened to. -/
structure Accounted (taken consumed waiting : List (Nat × Bytes)) (s : State) : Prop where
  frames : ∀ f ∈ consumed ++ waiting, IsFrame f.2
  port : s.cmdPort = waiting.flatMap (·.2) ++ unfinished s.cmdPort
  bytes : taken.flatMap (·.2) = (consumed ++ waiting).flatMap (·.2) ++ unfinished s.cmdPort
  ofHost : ∀ host, piecesOf host taken =
    piecesOf host (consumed ++ waiting) ++ (if s.sender = host then unfinished s.cmdPort else [])

theorem accounted_of_empty {s : State} (hp : s.cmdPort = []) : Accounted [] [] [] s where
  frames := by simp
  port := by simp [hp]
  bytes := by simp [hp]
  ofHost := by simp [hp, piecesOf]

/-- Of a host that the port listens to the unfinished frame is that host's, or there is none (R51). -/
theorem unfinished_of_accepts {s : State} {host : Nat} (ha : s.accepts host = true) (host' : Nat) :
    (if s.sender = host' then unfinished s.cmdPort else []) = if host = host' then unfinished s.cmdPort else [] := by
  rcases (accepts_iff s host).mp ha with hempty | hsame
  · rw [hempty, ite_self, ite_self]
  · rw [hsame]

namespace Accounted
variable {taken consumed waiting : List (Nat × Bytes)} {s : State}

/-- The account reads the command port and the host listened to only. -/
theorem congr {t : State} (h : Accounted taken consumed waiting s) (hp : t.cmdPort = s.cmdPort)
    (hs : t.sender = s.sender) : Accounted taken consumed waiting t := by
  obtain ⟨frames, port, bytes, ofHost⟩ := h
  rw [← hp] at port bytes ofHost
  rw [← hs] at ofHost
  exact ⟨frames, port, bytes, ofHost⟩

/-- A step consumes the first of the waiting frames. -/
theorem step (h : Accounted taken consumed waiting s) {t : State} (e : Machine.step s = .next t) :
    ∃ f later, Accounted taken (consumed ++ [f]) later t := by
  obtain ⟨hdrop, hsender⟩ := step_port e
  have hu := unfinished_of_some hdrop
  obtain ⟨frames, port, bytes, ofHost⟩ := h
  cases waiting with
  | nil =>
    have hnone := dropFrame_unfinished s.cmdPort
    rw [List.flatMap_nil, List.nil_append] at port
    rw [← port, hdrop] at hnone
    cases hnone
  | cons f later =>
    have hf : IsFrame f.2 := frames f (by simp)
    have hport : t.cmdPort = later.flatMap (·.2) ++ unfinished s.cmdPort := by
      rw [port, List.flatMap_cons, List.append_assoc, dropFrame_append hf, List.nil_append] at hdrop
      exact (Option.some.inj hdrop).symm
    rw [List.append_cons] at frames bytes ofHost
    rw [hu] at hport bytes ofHost
    rw [← hsender] at ofHost
    exact ⟨f, later, frames, hport, bytes, ofHost⟩

/-- A delivery that the port takes ends the frame of the host listened to, if it is long enough, and goes on with frames of
the same host. -/
theorem send (h : Accounted taken consumed waiting s) {host : Nat} (ha : s.accepts host = true) (bytes : Bytes) :
    ∃ more, Accounted (taken ++ [(host, bytes)]) consumed (waiting ++ more) (s.takeFrom host bytes) := by
  obtain ⟨hframes, hport, hbytes, hofHost⟩ := h
  obtain ⟨frames, hcut, _, hall⟩ := frames_then_unfinished (unfinished s.cmdPort ++ bytes)
  have hu : unfinished (s.takeFrom host bytes).cmdPort = unfinished (unfinished s.cmdPort ++ bytes) :=
    unfinished_append s.cmdPort bytes
  rw [← hu] at hcut
  have hflat : (frames.map (host, ·)).flatMap (·.2) = frames.flatten := by simp [List.flatMap_map]
  refine ⟨frames.map (host, ·), ?_, ?_, ?_, fun host' => ?_⟩
  · intro f hf
    rw [← List.append_assoc, List.mem_append] at hf
    rcases hf with hf | hf
    · exact hframes f hf
    · obtain ⟨frame, hmem, rfl⟩ := List.mem_map.mp hf
      exact hall frame hmem
  · rw [List.flatMap_append, hflat, List.append_assoc, ← hcut, takeFrom_cmdPort, ← List.append_assoc, ← hport]
  · rw [← List.append_assoc, List.flatMap_append (xs := taken), hbytes, List.flatMap_append (ys := frames.map (host, ·)),
      hflat, List.append_assoc, List.append_assoc, ← hcut]
    simp
  · have htaken : piecesOf host' [(host, bytes)] = if host = host' then bytes else [] := by
      simpa using piecesOf_map_pair host' host [bytes]
    rw [← List.append_assoc, piecesOf_append, piecesOf_append, hofHost, htaken, piecesOf_map_pair, takeFrom_sender,
      unfinished_of_accepts ha, List.append_assoc, List.append_assoc]
    by_cases hh : host = host'
    · simp only [if_pos hh, hcut]
    · simp only [if_neg hh]

end Accounted

/-- In any run the deliveries that the port took are accounted for. -/
theorem Heard.accounted {taken : List (Nat × Bytes)} {s : State} (h : Heard taken s) :
    ∃ consumed waiting, Accounted taken consumed waiting s := by
  induction h with
  | start s hp => exact ⟨[], [], accounted_of_empty hp⟩
  | step _ e ih =>
    obtain ⟨consumed, waiting, h⟩ := ih
    obtain ⟨f, later, h'⟩ := h.step e
    exact ⟨consumed ++ [f], later, h'⟩
  | @send _ s host bytes _ ih =>
    obtain ⟨consumed, waiting, h⟩ := ih
    cases ha : s.accepts host with
    | true =>
      obtain ⟨more, h'⟩ := h.send ha bytes
      rw [hostAct_send_accepted s host bytes ha]
      exact ⟨consumed, waiting ++ more, h'⟩
    | false =>
      rw [hostAct_send_held s host bytes ha]
      exact ⟨consumed, waiting, h⟩
  | receive n _ ih =>
    obtain ⟨consumed, waiting, h⟩ := ih
    exact ⟨consumed, waiting, h.congr rfl rfl⟩

/-! #### Bytes of operands and of blocks -/

/-- The four bytes of a word read from a string long enough are the string's, least significant byte first (R11). -/
theorem bytes_of_eq_le32 {word : Word} {b : Bytes} {i : Nat} (hword : word = le32 b i) (hlen : i + 4 ≤ b.length) :
    ∀ m < 4, b[i + m]? = some (word.extractLsb' (8 * m) 8) := by
  intro m hm
  have hin : i + m < b.length := by omega
  rw [hword, le32_byte b i m hm, List.getD_eq_getElem _ _ hin, List.getElem?_eq_getElem hin]

/-- The serialized words are the words' bytes in a row (R105). -/
theorem serialize_toList (X : Vector Word 16) : (serialize X).toList = X.toList.flatMap bytesLe32 := by
  refine List.ext_getElem? fun k => ?_
  rw [flatMap_bytesLe32_getElem?, Vector.getElem?_toList, Vector.getElem?_toList]
  by_cases hk : k < 64
  · rw [Vector.getElem?_eq_getElem hk, Vector.getElem?_eq_getElem (show k / 4 < 16 by omega)]
    simp [serialize]
  · rw [Vector.getElem?_eq_none (by omega), Vector.getElem?_eq_none (by omega)]
    rfl

/-- Word `i` before serialization (R104). -/
theorem blockWords_getElem (S : Vector Word 16) {i : Nat} (hi : i < 16) :
    (blockWords S)[i] = ((DR^[10]) S)[i] + S[i] := by
  simp [blockWords, doubleRounds_iterate]

/-! #### The statements of 20_memory.md -/

/-- Settles O13: each step runs the command at the front of the port, and each command adds a response frame. -/
theorem queuedFramesServedInArrivalOrder : Obligations.QueuedFramesServedInArrivalOrder := by
  intro i j rest s hi hj
  obtain ⟨t, c₁, p₁, et, htport, ht⟩ := exec_responds i (s.setCmdPort (encode j ++ rest))
  obtain ⟨u, c₂, p₂, eu, _, hu⟩ := exec_responds j (t.setCmdPort rest)
  rw [setCmdPort_respPort] at ht hu
  refine ⟨t, u, respond c₁ p₁, respond c₂ p₂, ?_, et, ht, ?_, eu, ht ▸ hu, respond_ne_nil c₁ p₁, respond_ne_nil c₂ p₂⟩
  · exact (step_of_encode hi (List.append_assoc ..)).trans et
  · exact (step_of_encode hj htport).trans eu

/-- Settles O22: CONSTRUCT writes the words of `le32`, whose bytes are the operand's. -/
theorem keyAndNonceBytesAreLittleEndian : Obligations.KeyAndNonceBytesAreLittleEndian := by
  intro key nonce counter s hkey hnonce
  refine ⟨_, execConstruct_long counter hkey hnonce, fun k hk => ?_, fun k hk => ?_⟩
  · have hword := constructedS_key key nonce counter hk
    exact ⟨hword, bytes_of_eq_le32 hword (by omega)⟩
  · have hword := constructedS_nonce key nonce counter hk
    exact ⟨hword, bytes_of_eq_le32 hword (by omega)⟩

/-- Settles O32: serializing the words of ten double rounds plus the input puts their bytes in a row. -/
theorem blockIsTenDoubleRoundsPlusInput : Obligations.BlockIsTenDoubleRoundsPlusInput := by
  intro S
  rw [BLOCK]
  refine ⟨?_, fun i m hi hm => ?_⟩
  · rw [serialize_toList]
    congr 1
    refine List.ext_getElem (by simp) fun i hi _ => ?_
    rw [Vector.getElem_toList, List.getElem_ofFn]
    exact blockWords_getElem S (by simpa using hi)
  · rw [serialize_byte _ hi hm, blockWords_getElem S hi]

/-- Settles O47, by the account of the deliveries, an invariant of the run. -/
theorem noFrameMixesTwoHostsBytes : Obligations.NoFrameMixesTwoHostsBytes := by
  intro taken s h
  obtain ⟨consumed, waiting, hframes, hport, hbytes, hofHost⟩ := h.accounted
  refine ⟨consumed ++ waiting, consumed.length, hframes, dropFrame_eq_none.mp (dropFrame_unfinished _), hbytes, hofHost,
    by simp, ?_⟩
  rw [List.drop_left]
  exact hport

/-- Settles O48: the port takes every frame, and the steps execute the commands in the frames' order. -/
theorem wholeCommandsOfHostsServedInAnyOrder : Obligations.WholeCommandsOfHostsServedInAnyOrder := by
  intro commands s hp hw
  have hframes : ∀ d ∈ commands.map (fun c => (c.1, encode c.2)), IsFrame d.2 :=
    List.forall_mem_map.mpr fun c hc => isFrame_encode (hw c hc)
  obtain ⟨host, hsent⟩ := sendAll_frames hframes (s := s) (by rw [hp, unfinished_nil])
  have hqueue : (s.takeFrom host ((commands.map fun c => (c.1, encode c.2)).flatMap (·.2))).cmdPort =
      (commands.map (·.2)).flatMap encode := by
    simp [hp, List.flatMap_map]
  obtain ⟨t, hsteps, hrun⟩ := steps_of_encodes (List.forall_mem_map.mpr hw) hqueue
  rw [List.length_map] at hsteps
  rw [takeFrom_consumed hp] at hrun
  exact ⟨host, t, hsent ▸ hsteps, hrun⟩

/-- Settles O49: a piece of a frame is unfinished, so only its host is listened to; the whole frame is not. -/
theorem unfinishedFrameHoldsThePort : Obligations.UnfinishedFrameHoldsThePort := by
  intro i piece missing bytes host other s hw hcut hpiece hmissing hp hother
  have hframe : IsFrame (piece ++ missing) := hcut ▸ isFrame_encode hw
  have hsent : hostAct (.send host piece) s = s.takeFrom host piece :=
    hostAct_send_accepted s host piece (accepts_of_empty s host hp)
  have hwhole : hostAct (.send host missing) (s.takeFrom host piece) = s.takeFrom host (encode i) := by
    rw [hostAct_send_accepted _ host missing (accepts_sender (s.takeFrom host piece)), takeFrom_takeFrom, hcut]
  have hheld : (s.takeFrom host piece).accepts other = false := by
    rw [Bool.eq_false_iff, Ne, accepts_iff, takeFrom_cmdPort, hp, List.nil_append,
      unfinished_of_none (hframe.dropFrame_piece hmissing), takeFrom_sender]
    exact not_or.mpr ⟨hpiece, hother.symm⟩
  have hboundary : (s.takeFrom host (encode i)).accepts other = true :=
    (accepts_iff _ _).mpr (.inl (by rw [takeFrom_cmdPort, hp, List.nil_append, (isFrame_encode hw).unfinished_eq_nil]))
  simp only [hsent, hwhole]
  refine ⟨by simp [hp], hostAct_send_held _ _ _ hheld, ?_, ?_⟩
  · rw [step_of_encode hw (rest := []) (by simp [hp]), takeFrom_consumed hp]
  · rw [hostAct_send_accepted _ _ _ hboundary]
    simp [hp]

end Sys2Proof.Machine

/-! ### Encoding: the facts the statements of 30_encoding.md need

Decoding inverted: which header and fields read as a command (R63 to R66), and which header words are legal (R69). What
ENCRYPT answers byte by byte, for the pseudo-instructions (R73), and the frames of the opcode table's words (R62). -/

namespace Sys2Proof

/-! #### Decoding inverted -/

/-- What the field of RESET_SEQ reads (R64). -/
theorem takeResetSeq_eq_some {stream rest : Bytes} {i : Instr} :
    takeResetSeq stream = some (i, rest) ↔ ∃ seq, i = .resetSeq seq ∧ stream = bytesLe64 seq ++ rest := by
  constructor
  · intro h
    obtain ⟨⟨seq, _⟩, hread, hp⟩ := Option.map_eq_some_iff.mp h
    obtain ⟨rfl, rfl⟩ := Prod.mk.inj hp
    exact ⟨seq, rfl, takeLe64_eq_some.mp hread⟩
  · rintro ⟨seq, rfl, hstream⟩
    exact Option.map_eq_some_iff.mpr ⟨(seq, rest), takeLe64_eq_some.mpr hstream, rfl⟩

/-- What the fields of ENCRYPT and DECRYPT read; `command` is which of the two (R66). -/
theorem map_takeBuffers_eq_some {command : Bytes → Bytes → Instr} {stream rest : Bytes} {i : Instr} :
    ((takeBuffers stream).map fun p => (command p.1.1 p.1.2, p.2)) = some (i, rest) ↔
      ∃ src dst, i = command src dst ∧ stream = putCounted src ++ putCounted dst ++ rest ∧
        lengthFits src = true ∧ lengthFits dst = true := by
  constructor
  · intro h
    obtain ⟨⟨⟨src, dst⟩, _⟩, hread, hp⟩ := Option.map_eq_some_iff.mp h
    obtain ⟨rfl, rfl⟩ := Prod.mk.inj hp
    exact ⟨src, dst, rfl, takeBuffers_eq_some.mp hread⟩
  · rintro ⟨src, dst, rfl, hstream⟩
    exact Option.map_eq_some_iff.mpr ⟨((src, dst), rest), takeBuffers_eq_some.mpr hstream, rfl⟩

/-- Fields that read as a command are the fields of that command, and the header before them is the command's. -/
theorem encodeFields_of_decodeFields {h : Word} {fields rest : Bytes} {i : Instr}
    (hd : decodeFields h fields = .command i rest) :
    h = headerOf i ∧ i.wellFormed = true ∧ fields = encodeFields i ++ rest := by
  unfold decodeFields at hd
  split_ifs at hd with h1 h2 h3 h4 h5
  · obtain ⟨key, nonce, counter, rfl, hfields, hfit⟩ := takeConstruct_eq_some.mp (decodedOrHold_eq_command.mp hd)
    exact ⟨h1, Bool.and_eq_true_iff.mpr hfit, hfields⟩
  · obtain ⟨seq, rfl, hfields⟩ := takeResetSeq_eq_some.mp (decodedOrHold_eq_command.mp hd)
    exact ⟨h2, rfl, hfields⟩
  · cases hd
    exact ⟨h3, rfl, rfl⟩
  · obtain ⟨src, dst, rfl, hfields, hfit⟩ := map_takeBuffers_eq_some.mp (decodedOrHold_eq_command.mp hd)
    exact ⟨h4, Bool.and_eq_true_iff.mpr hfit, hfields⟩
  · obtain ⟨src, dst, rfl, hfields, hfit⟩ := map_takeBuffers_eq_some.mp (decodedOrHold_eq_command.mp hd)
    exact ⟨h5, Bool.and_eq_true_iff.mpr hfit, hfields⟩

/-- A frame that is a command's, byte for byte, decodes to the command. -/
theorem decode_of_encode_eq {i : Instr} {frame : Bytes} (hw : i.wellFormed = true) (he : encode i = frame) :
    decode frame = .command i [] := by
  have hd := decode_encode_append hw []
  rwa [List.append_nil, he] at hd

/-! #### Legal header words -/

/-- "A header word is legal exactly when it is one of" these five (R69). -/
def LegalHeader (h : Word) : Prop :=
  h = 0x00000001 ∨ h = 0x00000002 ∨ h = 0x00000003 ∨ h = 0x00000004 ∨ h = 0x00000005

/-- A header word is its RES field above its OP field (R61). -/
theorem header_toNat (h : Word) : h.toNat = 16 * (headerRES h).toNat + (headerOP h).toNat := by
  simp only [headerRES, headerOP, BitVec.extractLsb'_toNat]
  omega

/-- The legal header words by their fields (R61, R69). -/
theorem legalHeader_iff (h : Word) :
    LegalHeader h ↔ headerRES h = 0 ∧ 1 ≤ (headerOP h).toNat ∧ (headerOP h).toNat ≤ 5 := by
  have hword := header_toNat h
  have hop := (headerOP h).isLt
  simp only [LegalHeader, ← BitVec.toNat_inj, BitVec.ofNat_eq_ofNat, BitVec.toNat_ofNat]
  omega

/-- Exactly the header words that are not legal decode as illegal, and they take no fields (R69). -/
theorem decodeFields_eq_illegal {h h' : Word} {fields rest : Bytes} :
    decodeFields h fields = .illegal h' rest ↔ ¬ LegalHeader h ∧ h = h' ∧ fields = rest := by
  unfold decodeFields
  split_ifs with h1 h2 h3 h4 h5
  · exact iff_of_false decodedOrHold_ne_illegal fun hn => hn.1 (Or.inl h1)
  · exact iff_of_false decodedOrHold_ne_illegal fun hn => hn.1 (Or.inr (.inl h2))
  · exact iff_of_false nofun fun hn => hn.1 (Or.inr (.inr (.inl h3)))
  · exact iff_of_false decodedOrHold_ne_illegal fun hn => hn.1 (Or.inr (.inr (.inr (.inl h4))))
  · exact iff_of_false decodedOrHold_ne_illegal fun hn => hn.1 (Or.inr (.inr (.inr (.inr h5))))
  · have illegal : ¬ LegalHeader h := by simp only [LegalHeader, not_or]; exact ⟨h1, h2, h3, h4, h5⟩
    rw [Decoded.illegal.injEq, and_iff_right illegal]

/-! #### The opcode table's words -/

/-- The frames of the opcode table's words are the frames of its commands with empty or zero operands (R62). -/
theorem frameOfTableWord_eq_encode :
    frameOfTableWord 32 1 = encode (.construct [] [] 0) ∧ frameOfTableWord 32 2 = encode (.resetSeq 0) ∧
    frameOfTableWord 32 3 = encode .nextBlock ∧ frameOfTableWord 32 4 = encode (.encrypt [] []) ∧
    frameOfTableWord 32 5 = encode (.decrypt [] []) := by decide

theorem decodeTableWord_of_frame {i : Instr} {nbits w : Nat} (hw : i.wellFormed = true)
    (hf : frameOfTableWord nbits w = encode i) : decodeTableWord nbits w = some i := by
  rw [decodeTableWord, decode_of_encode_eq hw hf.symm]

end Sys2Proof

namespace Sys2Proof.Machine

/-- A table word put in front of the port runs as the next command, in the state before (log 13). -/
theorem step_withFetchWord {i : Instr} {nbits w : Nat} (hw : i.wellFormed = true)
    (hf : frameOfTableWord nbits w = encode i) (s : State) : step (s.withFetchWord nbits w) = exec i s := by
  have hp : (s.withFetchWord nbits w).cmdPort = encode i ++ s.cmdPort := by
    rw [State.withFetchWord, setCmdPort_cmdPort, hf]
  rw [step_of_encode hw hp, State.withFetchWord, setCmdPort_setCmdPort, setCmdPort_self]

/-! #### The payload of a response -/

/-- The payload of ENCRYPT and DECRYPT: WRITTEN, then a byte for each of the destination (R68), those under
the source XORed with the keystream (R137). -/
theorem payloadAfter_encrypt {src dst : Bytes} (hl : src.length ≤ dst.length) (S : Vector Word 16) :
    ∃ out, payloadAfter (.encrypt src dst) S = bytesLe32 (BitVec.ofNat 32 src.length) ++ out ∧ out.length = dst.length ∧
      ∀ (k : Nat) (_ : k < src.length),
        out[k]? = some (src[k] ^^^ (BLOCK (withCounter S (S[12] + BitVec.ofNat 32 (k / 64))))[k % 64]) := by
  refine ⟨_, rfl, xorFrom_length src dst hl 0 S _, fun k hk => ?_⟩
  simpa only [XORK, kernelBlock_zero, Nat.zero_add] using xorFrom_byte src dst hl 0 S _ k hk

/-- ENCRYPT and DECRYPT answer OK only with a destination long enough (R136). -/
theorem length_le_of_ok {src dst : Bytes} {valid : Bool} (ok : answerCode (.encrypt src dst) valid = .ok) :
    src.length ≤ dst.length := by
  obtain rfl := valid_of_ok id ok
  by_contra hl
  simp [answerCode, Nat.not_le.mp hl] at ok

/-! #### The destination's bytes -/

/-- Of a destination as long as the source no byte enters the result: each is overwritten (R130). -/
theorem xorFrom_dst_irrelevant {src dst : Bytes} (hl : dst.length = src.length) (i : Nat) (S : Vector Word 16)
    (KS : Vector Byte 64) : xorFrom i src dst S KS = xorFrom i src src S KS := by
  induction src generalizing dst i S KS with
  | nil => rw [List.eq_nil_of_length_eq_zero hl]
  | cons b src ih =>
    cases dst with
    | nil => cases hl
    | cons d dst => simp only [xorFrom, ih (Nat.succ.inj hl)]

/-- ENCRYPT onto a destination as long as the source has the outcome of ENCRYPT in place (R73). -/
theorem exec_encrypt_in_place {src dst : Bytes} {s : State} (hv : s.VALID = true) (hl : dst.length = src.length) :
    exec (.encrypt src src) s = exec (.encrypt src dst) s := by
  have hkernel : XORK src dst s.S s.KS = XORK src src s.S s.KS := xorFrom_dst_irrelevant hl 0 s.S s.KS
  simp only [exec, execEncrypt]
  rw [streamXor_valid hv (Nat.le_refl _), streamXor_valid hv (Nat.le_of_eq hl.symm), hkernel]

/-- What ENCRYPT answers while VALID is 1, byte by byte (R131, R137). -/
theorem exec_encrypt_bytes {src dst : Bytes} {s : State} (hv : s.VALID = true) (hl : src.length ≤ dst.length) :
    ∃ t out, exec (.encrypt src dst) s = .next t ∧ out.length = dst.length ∧
      t.respPort = s.respPort ++ (bytesLe32 0 ++ bytesLe32 (BitVec.ofNat 32 src.length) ++ out) ∧
      ∀ (k : Nat) (_ : k < src.length),
        out[k]? = some (src[k] ^^^ (BLOCK (s.S.set 12 (s.S[12] + BitVec.ofNat 32 (k / 64))))[k % 64]) := by
  obtain ⟨block, e⟩ := streamXor_of_ok hv hl
  obtain ⟨out, hpayload, hlength, hbytes⟩ := payloadAfter_encrypt hl s.S
  exact ⟨_, out, e, hlength, by simp [hpayload, respond, respCodeValue], hbytes⟩

/-! #### The statements of 30_encoding.md -/

/-- Settles O6: each field is read back from its bytes. -/
theorem decodeOfEncodeIsTheCommand : Obligations.DecodeOfEncodeIsTheCommand :=
  fun _ rest hw => decode_encode_append hw rest

/-- Settles O7: the stream's first four bytes are its header word, and the fields after it are the command's. -/
theorem decodedStreamIsTheEncoding : Obligations.DecodedStreamIsTheEncoding := by
  intro stream i rest hd
  rcases decode_cases stream with ⟨_, hhold⟩ | ⟨h, fields, rfl, hfields⟩
  · cases hhold.symm.trans hd
  · obtain ⟨rfl, hw, rfl⟩ := encodeFields_of_decodeFields (hfields.symm.trans hd)
    exact ⟨hw, (List.append_assoc ..).symm⟩

/-- Settles O8: the header word alone decides whether a frame is illegal, and an illegal one takes no fields. -/
theorem illegalHeaderAnsweredAndConsumesFourBytes : Obligations.IllegalHeaderAnsweredAndConsumesFourBytes := by
  intro h rest s
  refine ⟨legalHeader_iff h, fun legal h' rest' hd => ?_, fun illegal => ?_⟩
  · rw [decode_header, decodeFields_eq_illegal] at hd
    exact hd.1 legal
  · have hd : decode (bytesLe32 h ++ rest) = .illegal h rest := by
      rw [decode_header]; exact decodeFields_eq_illegal.mpr ⟨illegal, rfl, rfl⟩
    exact ⟨hd, step_of_illegal (s := { s with cmdPort := bytesLe32 h ++ rest }) hd⟩

/-- Settles O9: no piece of a frame is a frame, and its host is listened to. -/
theorem cutShortFrameWaitsForItsBytes : Obligations.CutShortFrameWaitsForItsBytes := by
  intro i piece missing s hw hcut hmissing
  have hframe : IsFrame (piece ++ missing) := hcut ▸ isFrame_encode hw
  have hhold : decode piece = .hold := dropFrame_eq_none.mp (hframe.dropFrame_piece hmissing)
  refine ⟨hhold, step_of_hold hhold, ?_⟩
  rw [hostAct_send_accepted _ _ _ (accepts_sender { s with cmdPort := piece }),
    step_of_encode hw (rest := []) (by rw [takeFrom_cmdPort, hcut, List.append_nil])]
  rfl

/-- Settles O16: the closed form's payload, command by command. -/
theorem responseFrameLayout : Obligations.ResponseFrameLayout := by
  intro i s
  by_cases ok : answerCode i s.VALID = .ok
  · obtain ⟨block, e⟩ := exec_of_ok ok
    refine ⟨_, .ok, payloadAfter i s.S, e, rfl, fun h => absurd rfl h, fun _ => ?_⟩
    cases i with
    | construct | resetSeq => rfl
    | nextBlock => exact Vector.length_toList
    | encrypt src dst | decrypt src dst =>
      obtain ⟨out, hpayload, hlength, _⟩ := payloadAfter_encrypt (length_le_of_ok ok) s.S
      exact ⟨out, hpayload, hlength⟩
  · exact ⟨_, answerCode i s.VALID, [], exec_of_error ok, rfl, fun _ => rfl, fun h => absurd h ok⟩

/-- Settles O43: both are ENCRYPTs; a zero source leaves the keystream, and no byte of the destination enters. -/
theorem pseudoInstructionsGiveKeystreamAndInPlaceXor : Obligations.PseudoInstructionsGiveKeystreamAndInPlaceXor := by
  refine ⟨fun _ => rfl, fun _ => rfl, fun n s hv => ?_, fun src dst s hv hl => ⟨exec_encrypt_in_place hv hl, ?_⟩⟩
  · obtain ⟨t, out, e, hlength, hresp, hbytes⟩ := exec_encrypt_bytes (src := zeros n) hv (Nat.le_refl _)
    rw [zeros_length] at hlength hresp
    refine ⟨t, out, e, hlength, hresp, fun k hk => ?_⟩
    have hk' : k < (zeros n).length := by rwa [zeros_length]
    have hzero : (zeros n)[k] = 0#8 := List.getElem_replicate ..
    rw [hbytes k hk', hzero, BitVec.zero_xor]
  · exact exec_encrypt_bytes hv (Nat.le_refl _)

/-- Settles O10: a step executes the command that `decode` reads, and leaves on the port what `decode` leaves. -/
theorem stepRunsTheDecodedCommand : Obligations.StepRunsTheDecodedCommand :=
  fun _ _ _ hd => step_of_command hd

/-- Settles O11: the bytes are computed, and decode by the round trip of O6; the raw word is no legal header. -/
theorem sampleFramesAssembleAndDecode : Obligations.SampleFramesAssembleAndDecode :=
  ⟨⟨rfl, decode_of_encode_eq rfl rfl⟩, ⟨rfl, decode_of_encode_eq rfl rfl⟩, ⟨rfl, rfl, decode_of_encode_eq rfl rfl⟩,
    ⟨rfl, decode_of_encode_eq rfl rfl⟩, ⟨rfl, decode_of_encode_eq rfl rfl⟩, rfl, decode_header 0x00000014 []⟩

/-- Settles O12: each word's frame is its command's. -/
theorem tableWordsRunAsTheirCommands : Obligations.TableWordsRunAsTheirCommands := by
  obtain ⟨f1, f2, f3, f4, f5⟩ := frameOfTableWord_eq_encode
  exact ⟨⟨decodeTableWord_of_frame rfl f1, decodeTableWord_of_frame rfl f2, decodeTableWord_of_frame rfl f3,
      decodeTableWord_of_frame rfl f4, decodeTableWord_of_frame rfl f5⟩,
    fun s => ⟨step_withFetchWord rfl f1 s, step_withFetchWord rfl f2 s, step_withFetchWord rfl f3 s,
      step_withFetchWord rfl f4 s, step_withFetchWord rfl f5 s⟩⟩

end Sys2Proof.Machine

/-! ### State load: the facts the statements of 40_state_load.md need

Which bytes of its operands CONSTRUCT reads (R83), and the bytes of the two words that RESET_SEQ writes into the nonce
(R88). -/

namespace Sys2Proof

/-- A byte of a field of a number is a byte of the number. -/
theorem extract_byte_of_field {w : Nat} (q : BitVec w) (start : Nat) {len m : Nat} (h : m + 8 ≤ len) :
    (q.extractLsb' start len).extractLsb' m 8 = q.extractLsb' (start + m) 8 := by
  ext j hj
  simp [Nat.add_assoc, show m + j < len by omega]

/-- A word read from a string does not depend on what follows its four bytes (R11). -/
theorem le32_append {b : Bytes} (tail : Bytes) {i : Nat} (h : i + 4 ≤ b.length) : le32 (b ++ tail) i = le32 b i := by
  refine eq_of_bytes_eq (n := 4) fun m hm => ?_
  rw [le32_byte _ _ _ hm, le32_byte _ _ _ hm, List.getD_append _ _ _ _ (by omega)]

end Sys2Proof

namespace Sys2Proof.Machine

/-- The words CONSTRUCT writes do not depend on bytes past 31 of the key and past 11 of the nonce (R83). -/
theorem constructedS_append {key nonce : Bytes} (keyTail nonceTail : Bytes) (counter : Word)
    (hkey : 32 ≤ key.length) (hnonce : 12 ≤ nonce.length) :
    constructedS (key ++ keyTail) (nonce ++ nonceTail) counter = constructedS key nonce counter := by
  have key_word (k : Nat) (hk : k < 8) : keyWord (key ++ keyTail) k = keyWord key k := le32_append _ (by omega)
  have nonce_word (k : Nat) (hk : k < 3) : nonceWord (nonce ++ nonceTail) k = nonceWord nonce k :=
    le32_append _ (by omega)
  simp [constructedS, key_word, nonce_word]

/-- The bytes of the two halves of a sequence number are its bytes, the low half's first (R45). -/
theorem bytesLe32_seqLow_append_seqHigh (seq : Word64) :
    bytesLe32 (seqLow seq) ++ bytesLe32 (seqHigh seq) = bytesLe64 seq := by
  simp [bytesLe32, bytesLe64, seqLow, seqHigh, extract_byte_of_field]

/-! #### The statements of 40_state_load.md -/

/-- Settles O21: short operands only answer the error; long enough ones write the words of `constructedS`. -/
theorem constructBuildsTheInstanceOrChangesNothing : Obligations.ConstructBuildsTheInstanceOrChangesNothing := by
  intro key nonce counter s
  refine ⟨execConstruct_short counter, fun hkey hnonce => ?_⟩
  exact ⟨constructedS key nonce counter, execConstruct_long counter hkey hnonce, rfl, rfl, rfl, rfl,
    fun _ hk => constructedS_key key nonce counter hk, constructedS_counter key nonce counter,
    fun _ hk => constructedS_nonce key nonce counter hk⟩

/-- Settles O23: with and without the tails the operands are long enough, and the words written are the same. -/
theorem constructIgnoresBytesPastKeyAndNonce : Obligations.ConstructIgnoresBytesPastKeyAndNonce := by
  intro key nonce keyTail nonceTail counter s hkey hnonce
  have tails : exec (.construct (key ++ keyTail) (nonce ++ nonceTail) counter) s =
      .next (((s.writeS (constructedS key nonce counter)).writeVALID true).answer .ok []) := by
    rw [← constructedS_append keyTail nonceTail counter hkey.ge hnonce.ge]
    exact execConstruct_long counter (by simp [hkey]) (by simp [hnonce])
  exact ⟨tails.trans (execConstruct_long counter hkey.ge hnonce.ge).symm, _, tails, rfl, rfl⟩

/-- Settles O24: an instance gets the words of `resequencedS`; without one VALID stops the command. -/
theorem resetSeqWritesCounterAndLastNonceWords : Obligations.ResetSeqWritesCounterAndLastNonceWords := by
  intro seq s
  refine ⟨fun hv => ?_, fun hv => exec_not_valid hv id⟩
  exact ⟨resequencedS s.S seq, execResetSeq_valid seq hv, resequencedS_counter s.S seq, resequencedS_low s.S seq,
    resequencedS_high s.S seq, fun _ hj => resequencedS_other s.S seq hj⟩

/-- Settles O25: S[14] and S[15] are the two halves of the sequence number. -/
theorem resetSeqNonceBytesAreTheSequenceNumber : Obligations.ResetSeqNonceBytesAreTheSequenceNumber := by
  intro seq s hv
  have low : (resequencedS s.S seq)[14] = seqLow seq := resequencedS_low s.S seq
  have high : (resequencedS s.S seq)[15] = seqHigh seq := resequencedS_high s.S seq
  refine ⟨_, execResetSeq_valid seq hv, low, high, ?_⟩
  rw [answer_S, writeS_S, low, high, bytesLe32_seqLow_append_seqHigh]

end Sys2Proof.Machine

/-! ### Block transform: the facts the statements of 41_block_transform.md need

Each step of the quarter-round can be undone (R101). Of a list of disjoint groups any may be taken first, so each
quarter-round acts on the words that were there before all of them (R103). A call of the generator leaves the counter one
further, and so does a NEXT_BLOCK (R106, R108). -/

namespace Sys2Proof.Machine

/-! #### The quarter-round -/

/-- The quarter-round's steps undone, the last one first (R101). -/
def undoQR (a b c d : Word) : Word × Word × Word × Word :=
  let b := b.rotateRight 7 ^^^ c; let c := c - d
  let d := d.rotateRight 8 ^^^ a; let a := a - b
  let b := b.rotateRight 12 ^^^ c; let c := c - d
  let d := d.rotateRight 16 ^^^ a; let a := a - b
  (a, b, c, d)

theorem undoQR_QR (a b c d : Word) :
    undoQR (QR a b c d).1 (QR a b c d).2.1 (QR a b c d).2.2.1 (QR a b c d).2.2.2 = (a, b, c, d) := by
  rw [QR]
  simp [undoQR, rotateRight_rotl32]

theorem QR_undoQR (a b c d : Word) :
    QR (undoQR a b c d).1 (undoQR a b c d).2.1 (undoQR a b c d).2.2.1 (undoQR a b c d).2.2.2 = (a, b, c, d) := by
  rw [QR]
  simp [undoQR, rotl32_rotateRight]

/-! #### Quarter-rounds at disjoint groups -/

/-- The words at a group, in the quarter-round's order (R102). -/
def wordsAt (W : Vector Word 16) (g : Group) : Word × Word × Word × Word := (W[g.1], W[g.2.1], W[g.2.2.1], W[g.2.2.2])

/-- A quarter-round in place replaces the words of a group of four different indices by their quarter-round. -/
theorem wordsAt_quarterRoundAt (W : Vector Word 16) {g : Group} (hg : [g.1, g.2.1, g.2.2.1, g.2.2.2].Nodup) :
    wordsAt (quarterRoundAt W g) g = QR W[g.1] W[g.2.1] W[g.2.2.1] W[g.2.2.2] := by
  simp only [List.nodup_cons, List.mem_cons, not_or, Fin.ext_iff] at hg
  simp [wordsAt, quarterRoundAt_getElem, hg, Ne.symm]

/-- Quarter-rounds at groups disjoint from `g` leave the words of `g`. -/
theorem wordsAt_applyGroups_disjoint {groups : List Group} {g : Group} (d : ∀ h ∈ groups, GroupsDisjoint g h)
    (W : Vector Word 16) : wordsAt (applyGroups groups W) g = wordsAt W g := by
  induction groups generalizing W with
  | nil => rfl
  | cons h later ih =>
    obtain ⟨dh, dlater⟩ := List.forall_mem_cons.mp d
    calc wordsAt (applyGroups later (quarterRoundAt W h)) g
      _ = wordsAt (quarterRoundAt W h) g := ih dlater _
      _ = wordsAt W g := by simp [-Fin.getElem_fin, wordsAt, quarterRoundAt_disjoint W dh]

section DisjointGroups
variable {groups : List Group} (d : ∀ g ∈ groups, ∀ h ∈ groups, g ≠ h → GroupsDisjoint g h)
include d

/-- Quarter-rounds at disjoint groups may run in any order (R103). -/
theorem applyGroups_perm {order : List Group} (hp : order.Perm groups) (W : Vector Word 16) :
    applyGroups order W = applyGroups groups W := by
  refine (hp.symm.foldl_eq' (fun g hg h hh V => ?_) W).symm
  by_cases e : g = h
  · rw [e]
  · exact quarterRoundAt_comm V g h (d g hg h hh e)

/-- Each of disjoint groups then holds the quarter-round of the words it held: it may be taken first, and the others leave
its words. -/
theorem wordsAt_applyGroups {g : Group} (hn : groups.Nodup) (hg : g ∈ groups)
    (hd : [g.1, g.2.1, g.2.2.1, g.2.2.2].Nodup) (W : Vector Word 16) :
    wordsAt (applyGroups groups W) g = QR W[g.1] W[g.2.1] W[g.2.2.1] W[g.2.2.2] := by
  have others : ∀ h ∈ groups.erase g, GroupsDisjoint g h := fun h hh =>
    have ⟨hne, hmem⟩ := hn.mem_erase_iff.mp hh
    d g hg h hmem hne.symm
  calc wordsAt (applyGroups groups W) g
    _ = wordsAt (applyGroups (groups.erase g) (quarterRoundAt W g)) g :=
      congrArg (wordsAt · g) (applyGroups_perm d (List.perm_cons_erase hg).symm W).symm
    _ = wordsAt (quarterRoundAt W g) g := wordsAt_applyGroups_disjoint others _
    _ = QR W[g.1] W[g.2.1] W[g.2.2.1] W[g.2.2.2] := wordsAt_quarterRoundAt W hd

end DisjointGroups

/-! #### The grid -/

/-- Column `j` of the grid, top row first (R102). -/
def gridColumn (j : Nat) (_ : j < 4) : Group :=
  (⟨j, by omega⟩, ⟨j + 4, by omega⟩, ⟨j + 8, by omega⟩, ⟨j + 12, by omega⟩)

/-- Diagonal `j` of the grid: from row 0, column `j` on, one row down and one column right, wrapping (R102). -/
def gridDiagonal (j : Nat) (_ : j < 4) : Group :=
  (⟨j, by omega⟩, ⟨4 + (j + 1) % 4, by omega⟩, ⟨8 + (j + 2) % 4, by omega⟩, ⟨12 + (j + 3) % 4, by omega⟩)

theorem gridColumn_mem : ∀ (j : Nat) (hj : j < 4), gridColumn j hj ∈ columnGroups := by decide

theorem gridDiagonal_mem : ∀ (j : Nat) (hj : j < 4), gridDiagonal j hj ∈ diagonalGroups := by decide

/-- The four indices of every group differ (R102). -/
theorem group_nodup : ∀ g ∈ columnGroups ++ diagonalGroups, [g.1, g.2.1, g.2.2.1, g.2.2.2].Nodup := by
  simp [columnGroups, diagonalGroups]

/-- After the columns' quarter-rounds each grid column holds the quarter-round of its words. -/
theorem wordsAt_column (W : Vector Word 16) (j : Nat) (hj : j < 4) :
    wordsAt (applyGroups columnGroups W) (gridColumn j hj) = QR W[j] W[j + 4] W[j + 8] W[j + 12] :=
  have hmem := gridColumn_mem j hj
  wordsAt_applyGroups columnGroups_disjoint (by decide) hmem (group_nodup _ (List.mem_append_left _ hmem)) W

/-- After the diagonals' quarter-rounds each wrapping diagonal holds the quarter-round of its words. -/
theorem wordsAt_diagonal (V : Vector Word 16) (j : Nat) (hj : j < 4) :
    wordsAt (applyGroups diagonalGroups V) (gridDiagonal j hj) =
      QR V[j] V[4 + (j + 1) % 4] V[8 + (j + 2) % 4] V[12 + (j + 3) % 4] :=
  have hmem := gridDiagonal_mem j hj
  wordsAt_applyGroups diagonalGroups_disjoint (by decide) hmem (group_nodup _ (List.mem_append_right _ hmem)) V

/-! #### The generator -/

/-- Counter values counted from after an advance are one further from before it. -/
theorem withCounter_after_advance (S : Vector Word 16) (k : Nat) :
    withCounter (advanceCounter S) ((advanceCounter S)[12] + BitVec.ofNat 32 k) =
      withCounter S (S[12] + BitVec.ofNat 32 (k + 1)) := by
  simp [Nat.add_comm k 1, BitVec.ofNat_add, BitVec.add_assoc]

/-- The blocks of `m` calls in a row are those of the counter values from S[12] on (R108). -/
theorem GENs_blocks (m : Nat) (S : Vector Word 16) :
    (GENs m S).1 = (List.range m).map fun k => BLOCK (withCounter S (S[12] + BitVec.ofNat 32 k)) := by
  induction m generalizing S with
  | zero => rfl
  | succ m ih =>
    have first : BLOCK S = BLOCK (withCounter S (S[12] + BitVec.ofNat 32 0)) := by simp
    have later := ih (advanceCounter S)
    simp only [withCounter_after_advance] at later
    rw [List.range_succ_eq_map, List.map_cons, List.map_map, ← first]
    exact congrArg (BLOCK S :: ·) later

/-- `m` calls in a row advance the counter by `m` and write no other word (R108). -/
theorem GENs_words (m : Nat) (S : Vector Word 16) : (GENs m S).2 = withCounter S (S[12] + BitVec.ofNat 32 m) := by
  induction m generalizing S with
  | zero => simp [GENs]
  | succ m ih => exact (ih (advanceCounter S)).trans (withCounter_after_advance S m)

/-! #### NEXT_BLOCK -/

/-- What NEXT_BLOCK leaves of an instance (R110): the parts that the next command reads, and the block in KS. -/
theorem exec_nextBlock_leaves {s : State} (hv : s.VALID = true) :
    ∃ t, exec .nextBlock s = .next t ∧ t.VALID = true ∧ t.S = advanceCounter s.S ∧ t.KS = BLOCK s.S :=
  ⟨_, execNextBlock_valid hv, hv, rfl, rfl⟩

/-- From 0xFFFFFFFF the counter wraps to 0 (R106). -/
theorem advanceCounter_wraps {S : Vector Word 16} (hmax : S[12] = 0xFFFFFFFF) : advanceCounter S = withCounter S 0 := by
  rw [advanceCounter, hmax]; rfl

/-! #### The statements of 41_block_transform.md -/

/-- Settles O30: `undoQR` is the inverse, and the worked values are computed. -/
theorem quarterRoundIsBijective : Obligations.QuarterRoundIsBijective :=
  ⟨Function.bijective_iff_has_inverse.mpr
      ⟨fun w => undoQR w.1 w.2.1 w.2.2.1 w.2.2.2, fun _ => undoQR_QR .., fun _ => QR_undoQR ..⟩,
    by decide +kernel⟩

/-- Settles O31: the groups of either half are disjoint, and they are the grid's columns and wrapping diagonals. -/
theorem doubleRoundOnTheGrid : Obligations.DoubleRoundOnTheGrid :=
  ⟨fun W j hj => ⟨wordsAt_column W j hj, wordsAt_diagonal (applyGroups columnGroups W) j hj⟩,
    fun W _ hp => applyGroups_perm columnGroups_disjoint hp W,
    fun W _ hp => applyGroups_perm diagonalGroups_disjoint hp W⟩

/-- Settles O33, by induction on the number of calls. -/
theorem generatorGivesConsecutiveBlocks : Obligations.GeneratorGivesConsecutiveBlocks :=
  fun m S => ⟨rfl, GENs_blocks m S, GENs_words m S⟩

/-- Settles O35: the NEXT_BLOCK leaves S with the counter advanced, and the ENCRYPT starts from that. -/
theorem nextBlockUsesUpOneCounterValue : Obligations.NextBlockUsesUpOneCounterValue := by
  intro src dst s hv hl
  obtain ⟨t, et, ht, htS, _⟩ := exec_nextBlock_leaves hv
  obtain ⟨block, eu⟩ := streamXor_of_ok ht hl
  obtain ⟨out, hpayload, _, hbytes⟩ := payloadAfter_encrypt hl t.S
  simp only [htS, withCounter_advanceCounter, advanceCounter_counter] at hbytes
  exact ⟨t, _, out, et, eu, by simp [hpayload, respond, respCodeValue], by simp [wordsAfter, htS], hbytes⟩

/-- Settles O29: the rotation of R9 is the library's. -/
theorem quarterRoundStepsInOrder : Obligations.QuarterRoundStepsInOrder := by
  intro a b c d
  rw [QR]
  simp only [rotl32_eq_rotateLeft, Nat.reduceLT]

/-- Settles O34: without an instance VALID stops the command; from 0xFFFFFFFF the advanced counter is 0. -/
theorem nextBlockAnswersBlockAndAdvancesCounter : Obligations.NextBlockAnswersBlockAndAdvancesCounter := by
  intro s
  refine ⟨execNextBlock_valid, fun hv => exec_not_valid hv id, fun hv hmax => ?_⟩
  obtain ⟨t, et, ht, htS, _⟩ := exec_nextBlock_leaves hv
  obtain ⟨u, eu, _, _, huKS⟩ := exec_nextBlock_leaves ht
  rw [advanceCounter_wraps hmax] at htS
  refine ⟨t, et, ?_, ?_, u, eu, ?_⟩
  · rw [htS, withCounter_counter]
  · rw [htS, withCounter_other s.S 0 (by decide) (by decide)]
  · rw [huKS, htS]; rfl

end Sys2Proof.Machine

/-! ### Stream cipher: the facts the statements of 42_stream_cipher.md need

The kernel's output in one closed form: the source XORed byte by byte with the keystream that S gives (R137), then what is
left of the destination. The keystream depends on S alone, so XORing with it twice gives the bytes back (R133), and where the
first part ends on a block boundary the keystream of the second part is the rest of the first one's (R134). Cores that hold
the same S and VALID answer the same commands with the same bytes (R139). -/

namespace Sys2Proof.Machine

/-! #### The keystream -/

/-- Byte `k` of the keystream from the words `S` on: byte `k mod 64` of the block of counter S[12] + k / 64 (R137). -/
def keystreamByte (S : Vector Word 16) (k : Nat) : Byte :=
  (BLOCK (withCounter S (S[12] + BitVec.ofNat 32 (k / 64))))[k % 64]

/-- The bytes of `src`, each XORed with the keystream byte of its index (R130). -/
def xorKeystream (src : Bytes) (S : Vector Word 16) : Bytes := src.mapIdx fun k b => b ^^^ keystreamByte S k

/-- The words of S after a call on `n` bytes: the counter is ceil(n / 64) further (R135). -/
def afterBlocks (n : Nat) (S : Vector Word 16) : Vector Word 16 :=
  withCounter S (S[12] + BitVec.ofNat 32 ((n + 63) / 64))

@[simp] theorem afterBlocks_zero (S : Vector Word 16) : afterBlocks 0 S = S := by simp [afterBlocks]

/-- One call after another leaves the counter further by both numbers of blocks. -/
theorem afterBlocks_afterBlocks (n m : Nat) (S : Vector Word 16) :
    afterBlocks m (afterBlocks n S) =
      withCounter S (S[12] + BitVec.ofNat 32 ((n + 63) / 64 + (m + 63) / 64)) := by
  simp [afterBlocks, BitVec.ofNat_add, BitVec.add_assoc]

/-- The keystream after a call on `n` bytes starts at the first block the call did not draw. -/
theorem keystreamByte_afterBlocks (n : Nat) (S : Vector Word 16) (k : Nat) :
    keystreamByte (afterBlocks n S) k = keystreamByte S (k + 64 * ((n + 63) / 64)) := by
  have hblock : (k + 64 * ((n + 63) / 64)) / 64 = (n + 63) / 64 + k / 64 := by omega
  have hbyte : (k + 64 * ((n + 63) / 64)) % 64 = k % 64 := by omega
  simp only [keystreamByte, hblock, hbyte]
  simp [afterBlocks, BitVec.ofNat_add, BitVec.add_assoc]

@[simp] theorem xorKeystream_length (src : Bytes) (S : Vector Word 16) : (xorKeystream src S).length = src.length :=
  List.length_mapIdx

@[simp] theorem xorKeystream_nil (S : Vector Word 16) : xorKeystream [] S = [] := rfl

theorem xorKeystream_getElem? (src : Bytes) (S : Vector Word 16) {k : Nat} (hk : k < src.length) :
    (xorKeystream src S)[k]? = some (src[k] ^^^ keystreamByte S k) := by
  simp [xorKeystream, hk]

/-- XORing twice with the same keystream gives the bytes back (R133). -/
@[simp] theorem xorKeystream_xorKeystream (src : Bytes) (S : Vector Word 16) :
    xorKeystream (xorKeystream src S) S = src := by
  refine List.ext_getElem (by simp) fun k _ _ => ?_
  simp [xorKeystream]

/-- From a block boundary on the keystream is that of the words which a call on the bytes before it leaves (R134). -/
theorem xorKeystream_append {p₁ : Bytes} (hb : p₁.length % 64 = 0) (p₂ : Bytes) (S : Vector Word 16) :
    xorKeystream (p₁ ++ p₂) S = xorKeystream p₁ S ++ xorKeystream p₂ (afterBlocks p₁.length S) := by
  have hblocks : 64 * ((p₁.length + 63) / 64) = p₁.length := by omega
  simp only [xorKeystream, List.mapIdx_append, keystreamByte_afterBlocks, hblocks]

/-! #### What ENCRYPT and DECRYPT leave -/

/-- The output of ENCRYPT and DECRYPT (R130): the source XORed with the keystream, then the rest of the destination. -/
def xorOutput (src dst : Bytes) (S : Vector Word 16) : Bytes := xorKeystream src S ++ dst.drop src.length

theorem xorOutput_length {src dst : Bytes} (hl : src.length ≤ dst.length) (S : Vector Word 16) :
    (xorOutput src dst S).length = dst.length := by
  simp [xorOutput, hl]

theorem xorOutput_byte {src : Bytes} (dst : Bytes) (S : Vector Word 16) {k : Nat} (hk : k < src.length) :
    (xorOutput src dst S)[k]? = some (src[k] ^^^ keystreamByte S k) := by
  rw [xorOutput, List.getElem?_append_left (by simpa using hk), xorKeystream_getElem? src S hk]

theorem xorOutput_tail {src : Bytes} (dst : Bytes) (S : Vector Word 16) {k : Nat} (hk : src.length ≤ k) :
    (xorOutput src dst S)[k]? = dst[k]? := by
  rw [xorOutput, List.getElem?_append_right (by simpa using hk), xorKeystream_length, List.getElem?_drop,
    Nat.add_sub_cancel' hk]

/-- The kernel's output, whatever KS held (R30, R137). -/
theorem XORK_out {src dst : Bytes} (hl : src.length ≤ dst.length) (S : Vector Word 16) (KS : Vector Byte 64) :
    (XORK src dst S KS).out = xorOutput src dst S := by
  refine List.ext_getElem? fun k => ?_
  rcases Nat.lt_or_ge k src.length with hk | hk
  · rw [xorOutput_byte dst S hk, XORK, xorFrom_byte src dst hl 0 S KS k hk]
    simp only [kernelBlock_zero, Nat.zero_add, keystreamByte]
  · rw [xorOutput_tail dst S hk, XORK, xorFrom_tail src dst hl 0 S KS k hk]

/-- The part of the output under the source. -/
@[simp] theorem xorOutput_take (src dst : Bytes) (S : Vector Word 16) :
    (xorOutput src dst S).take src.length = xorKeystream src S :=
  List.take_left' (xorKeystream_length src S)

/-- A destination as long as the source is overwritten in full. -/
theorem xorOutput_of_length_eq {src dst : Bytes} (hl : dst.length = src.length) (S : Vector Word 16) :
    xorOutput src dst S = xorKeystream src S := by
  rw [xorOutput, List.drop_of_length_le (Nat.le_of_eq hl), List.append_nil]

/-- The state after an ENCRYPT or DECRYPT that answers OK (R29, R131, R135): S, KS and the response port are written. -/
def afterXor (src dst : Bytes) (s : State) : State :=
  { s with
    S := afterBlocks src.length s.S
    KS := if src = [] then s.KS else BLOCK (withCounter s.S (s.S[12] + BitVec.ofNat 32 ((src.length - 1) / 64)))
    respPort := s.respPort ++ (bytesLe32 0 ++ bytesLe32 (BitVec.ofNat 32 src.length) ++ xorOutput src dst s.S) }

/-- ENCRYPT of an instance, with a destination long enough (R131). -/
theorem exec_encrypt_valid {src dst : Bytes} {s : State} (hv : s.VALID = true) (hl : src.length ≤ dst.length) :
    exec (.encrypt src dst) s = .next (afterXor src dst s) := by
  have hS : (XORK src dst s.S s.KS).S = afterBlocks src.length s.S := by
    simpa [XORK, afterBlocks] using xorFrom_S src dst hl 0 s.S s.KS
  have hKS : (XORK src dst s.S s.KS).KS = (afterXor src dst s).KS := by
    simp only [XORK, xorFrom_KS src dst hl, kernelBlock_zero, afterXor]
  rw [exec, execEncrypt, streamXor_valid hv hl, XORK_out hl, hS, hKS]
  rfl

/-- DECRYPT has the outcome of ENCRYPT (R132). -/
theorem exec_decrypt_eq_encrypt (src dst : Bytes) (s : State) : exec (.decrypt src dst) s = exec (.encrypt src dst) s :=
  rfl

/-- DECRYPT of an instance, with a destination long enough (R132). -/
theorem exec_decrypt_valid {src dst : Bytes} {s : State} (hv : s.VALID = true) (hl : src.length ≤ dst.length) :
    exec (.decrypt src dst) s = .next (afterXor src dst s) :=
  (exec_decrypt_eq_encrypt src dst s).trans (exec_encrypt_valid hv hl)

/-- A call on no bytes adds its answer and changes nothing else (R138). -/
theorem afterXor_nil (dst : Bytes) (s : State) :
    afterXor [] dst s = { s with respPort := s.respPort ++ (bytesLe32 0 ++ bytesLe32 0 ++ dst) } := by
  simp [afterXor, xorOutput]

/-! #### Cores that hold the same S and VALID -/

/-- The same S and VALID, whatever KS and the ports hold. -/
def SameInstance (s t : State) : Prop := s.VALID = t.VALID ∧ s.S = t.S

/-- What `run` does from `s` and from `t`: it completes, adds the same bytes to the response port, and leaves the same S and
VALID. -/
def AnswersAlike (run : State → Result) (s t : State) : Prop :=
  ∃ s' t' added, run s = .next s' ∧ run t = .next t' ∧ s'.respPort = s.respPort ++ added ∧
    t'.respPort = t.respPort ++ added ∧ SameInstance s' t'

theorem exec_answersAlike (i : Instr) {s t : State} (h : SameInstance s t) : AnswersAlike (exec i) s t := by
  obtain ⟨hvalid, hS⟩ := h
  by_cases ok : answerCode i s.VALID = .ok
  · obtain ⟨_, es⟩ := exec_of_ok ok
    obtain ⟨_, et⟩ := exec_of_ok (hvalid ▸ ok : answerCode i t.VALID = .ok)
    rw [← hS] at et
    exact ⟨_, _, _, es, et, rfl, rfl, rfl, rfl⟩
  · have et := exec_of_error (hvalid ▸ ok : answerCode i t.VALID ≠ .ok)
    rw [← hvalid] at et
    exact ⟨_, _, _, exec_of_error ok, et, rfl, rfl, hvalid, hS⟩

/-- A CONSTRUCT with operands long enough answers alike in any two cores (R82). -/
theorem construct_answersAlike {key nonce : Bytes} (counter : Word) (hk : 32 ≤ key.length) (hn : 12 ≤ nonce.length)
    (s t : State) : AnswersAlike (exec (.construct key nonce counter)) s t :=
  ⟨_, _, _, execConstruct_long counter hk hn, execConstruct_long counter hk hn, rfl, rfl, rfl, rfl⟩

/-- The run of a command and of later ones answers alike when each of the two does. -/
theorem AnswersAlike.cons {i : Instr} {later : List Instr} {s t : State} (hi : AnswersAlike (exec i) s t)
    (hlater : ∀ {s₁ t₁ : State}, SameInstance s₁ t₁ → AnswersAlike (runCommands later) s₁ t₁) :
    AnswersAlike (runCommands (i :: later)) s t := by
  obtain ⟨s₁, t₁, first, es, et, hs, ht, h₁⟩ := hi
  obtain ⟨s', t', rest, es', et', hs', ht', h'⟩ := hlater h₁
  exact ⟨s', t', first ++ rest, by rw [runCommands, es]; exact es', by rw [runCommands, et]; exact et',
    by rw [hs', hs, List.append_assoc], by rw [ht', ht, List.append_assoc], h'⟩

theorem runCommands_answersAlike (commands : List Instr) {s t : State} (h : SameInstance s t) :
    AnswersAlike (runCommands commands) s t := by
  induction commands generalizing s t with
  | nil => exact ⟨s, t, [], rfl, rfl, by simp, by simp, h⟩
  | cons i later ih => exact (exec_answersAlike i h).cons ih

/-! #### The statements of 42_stream_cipher.md -/

/-- Settles O36: the parts of the closed form `afterXor`. -/
theorem streamXorClosedForm : Obligations.StreamXorClosedForm := by
  intro src dst s hv hl
  exact ⟨xorOutput src dst s.S, afterXor src dst s, exec_encrypt_valid hv hl, exec_decrypt_valid hv hl, rfl,
    xorOutput_length hl s.S, fun _ => xorOutput_byte dst s.S, fun _ => xorOutput_tail dst s.S, by omega⟩

/-- Settles O40: both calls XOR with the keystream of the same S. -/
theorem decryptUndoesEncrypt : Obligations.DecryptUndoesEncrypt := by
  intro p dst dst' s t hs ht hS hl hl'
  have hcipher : (xorOutput p dst s.S).take p.length = xorKeystream p t.S := by rw [xorOutput_take, hS]
  have hplain := xorOutput_take (xorKeystream p t.S) dst' t.S
  rw [xorKeystream_length, xorKeystream_xorKeystream] at hplain
  refine ⟨xorOutput p dst s.S, xorOutput (xorKeystream p t.S) dst' t.S, afterXor p dst s,
    afterXor (xorKeystream p t.S) dst' t, afterXor p dst t, exec_encrypt_valid hs hl, rfl, ?_, ?_, hplain, ?_,
    exec_decrypt_valid ht hl, ?_, ?_⟩
  · rw [hcipher]
    exact exec_decrypt_valid ht (by simpa using hl')
  all_goals simp [afterXor, hS]

/-- Settles O41: an empty second call changes nothing, and from a block boundary on the keystream is the second call's. -/
theorem splitCallsJoinAtBlockBoundary : Obligations.SplitCallsJoinAtBlockBoundary := by
  intro p₁ p₂ d₁ d₂ s hv h₁ h₂ hsplit
  have h : (d₁ ++ d₂).length = (p₁ ++ p₂).length := by simp [h₁, h₂]
  have hout : xorKeystream (p₁ ++ p₂) s.S = xorKeystream p₁ s.S ++ xorKeystream p₂ (afterBlocks p₁.length s.S) := by
    rcases hsplit with hb | rfl
    · exact xorKeystream_append hb p₂ s.S
    · simp
  have hblocks : (p₁.length + 63) / 64 + (p₂.length + 63) / 64 = ((p₁ ++ p₂).length + 63) / 64 := by
    rw [List.length_append]
    rcases hsplit with hb | rfl
    · omega
    · simp
  refine ⟨xorKeystream p₁ s.S, xorKeystream p₂ (afterBlocks p₁.length s.S), afterXor p₁ d₁ s,
    afterXor p₂ d₂ (afterXor p₁ d₁ s), afterXor (p₁ ++ p₂) (d₁ ++ d₂) s, exec_encrypt_valid hv (Nat.le_of_eq h₁.symm), ?_,
    exec_encrypt_valid hv (Nat.le_of_eq h₂.symm), ?_, exec_encrypt_valid hv (Nat.le_of_eq h.symm), ?_, ?_⟩
  · rw [← xorOutput_of_length_eq h₁]; rfl
  · rw [← xorOutput_of_length_eq h₂]; rfl
  · rw [← hout, ← xorOutput_of_length_eq h, ← List.length_append]; rfl
  · calc afterBlocks p₂.length (afterBlocks p₁.length s.S)
      _ = _ := afterBlocks_afterBlocks ..
      _ = afterBlocks (p₁ ++ p₂).length s.S := by rw [hblocks, afterBlocks]

/-- Settles O42: the second call starts from the words the first leaves, the single call goes on inside its block. -/
theorem splitCallsInsideABlockDrawAFreshBlock : Obligations.SplitCallsInsideABlockDrawAFreshBlock := by
  intro p₁ p₂ d₁ d₂ b s hv h₁ h₂ _
  have h : (p₁ ++ b :: p₂).length = (d₁ ++ d₂).length := by simp [h₁, h₂]
  have hlen : (p₁ ++ b :: p₂).length = p₁.length + p₂.length + 1 := by simp [Nat.add_assoc]
  have hfresh : keystreamByte (afterBlocks p₁.length s.S) 0 = (BLOCK (afterBlocks p₁.length s.S))[0] := by
    simp [keystreamByte]
  refine ⟨xorOutput p₁ d₁ s.S, xorOutput (b :: p₂) d₂ (afterBlocks p₁.length s.S), xorOutput (p₁ ++ b :: p₂) (d₁ ++ d₂) s.S,
    afterXor p₁ d₁ s, afterXor (b :: p₂) d₂ (afterXor p₁ d₁ s), afterXor (p₁ ++ b :: p₂) (d₁ ++ d₂) s,
    exec_encrypt_valid hv (Nat.le_of_eq h₁.symm), rfl, exec_encrypt_valid hv (Nat.le_of_eq h₂.symm), rfl,
    exec_encrypt_valid hv (Nat.le_of_eq h), by rw [← hlen]; rfl, ?_, ?_, afterBlocks_afterBlocks .., by rw [← hlen]; rfl⟩
  · rw [xorOutput_byte d₂ _ (by simp), hfresh]; rfl
  · rw [xorOutput_byte (d₁ ++ d₂) s.S (by simp)]
    simp [keystreamByte, withCounter]

/-- Settles O45: the CONSTRUCT leaves the same S and VALID in both cores. -/
theorem sameConstructionSameAnswers : Obligations.SameConstructionSameAnswers := by
  intro key nonce counter commands s t hk hn
  obtain ⟨s', t', out, es, et, hs, ht, _, hS⟩ :=
    (construct_answersAlike counter hk hn s t).cons (runCommands_answersAlike commands)
  exact ⟨s', t', out, es, et, hs, ht, hS⟩

/-- Settles O37: the two frames have the same fields after the four bytes of the header word. -/
theorem decryptDiffersFromEncryptInHeaderOnly : Obligations.DecryptDiffersFromEncryptInHeaderOnly := by
  intro src dst s
  have hfields : (encode (.encrypt src dst)).drop 4 = encodeFields (.decrypt src dst) := List.drop_left' rfl
  have h4 : bytesLe32 0x00000004 = [0x04, 0x00, 0x00, 0x00] := by decide
  have h5 : bytesLe32 0x00000005 = [0x05, 0x00, 0x00, 0x00] := by decide
  rw [hfields, ← h4, ← h5]
  exact ⟨exec_decrypt_eq_encrypt src dst s, rfl, rfl⟩

/-- Settles O38: the check of the lengths comes before the kernel. -/
theorem shortDestinationRefusedBeforeAnyBlock : Obligations.ShortDestinationRefusedBeforeAnyBlock := by
  intro src dst s hv
  refine ⟨fun hshort => ⟨streamXor_short hv hshort, streamXor_short hv hshort⟩, fun heq => ?_⟩
  have hl : src.length ≤ dst.length := Nat.le_of_eq heq.symm
  exact ⟨afterXor src dst s, _, exec_encrypt_valid hv hl, exec_decrypt_valid hv hl,
    congrArg (s.respPort ++ ·) (List.append_assoc ..)⟩

/-- Settles O39: the closed form for an empty source; without an instance VALID stops the command. -/
theorem zeroLengthCallChangesNothing : Obligations.ZeroLengthCallChangesNothing := by
  intro dst s
  refine ⟨fun hv => ?_, fun hv => ⟨exec_not_valid hv id, exec_not_valid hv id⟩⟩
  rw [exec_decrypt_eq_encrypt, exec_encrypt_valid hv (Nat.zero_le _), afterXor_nil]
  exact ⟨rfl, rfl⟩

end Sys2Proof.Machine

/-! ### Exceptions: the facts the statements of 60_exceptions.md need

Every step that answers adds one response frame, of a command or of an illegal header, and an error adds nothing but its
code (R150, R151). -/

namespace Sys2Proof.Machine

/-! #### What a step answers -/

/-- A step adds one response frame; with a code other than OK its frame is consumed and only the code is answered (R151). -/
theorem step_responds {s t : State} (e : step s = .next t) :
    ∃ code payload, t.respPort = s.respPort ++ respond code payload ∧
      (code ≠ .ok → payload = [] ∧ ∃ rest, t = (s.setCmdPort rest).answer code []) := by
  rcases step_cases s with ⟨i, rest, _, es⟩ | ⟨_, rest, _, es⟩ | ⟨_, es⟩ <;> rw [es] at e
  · rcases exec_cases i (s.setCmdPort rest) with ⟨code, _, ei⟩ | ⟨_, _, payload, _, ei⟩ <;> cases ei.symm.trans e
    · exact ⟨code, [], rfl, fun _ => ⟨rfl, rest, rfl⟩⟩
    · exact ⟨.ok, payload, rfl, fun err => absurd rfl err⟩
  · cases e
    exact ⟨.illegalCommand, [], rfl, fun _ => ⟨rfl, rest, rfl⟩⟩
  · cases e

/-! #### The numbers of the response codes -/

theorem respCodeValue_toNat_le_four (code : RespCode) : (respCodeValue code).toNat ≤ 4 := by
  cases code <;> decide

/-- The first word of a response frame is its code's number (R68). -/
theorem le32_respond (code : RespCode) (payload : Bytes) : le32 (respond code payload) 0 = respCodeValue code :=
  le32_bytesLe32_append (respCodeValue code) payload

/-! #### The statements of 60_exceptions.md -/

/-- Settles O15: after an error only the ports differ. -/
theorem errorsLeaveTheInstanceUnchanged : Obligations.ErrorsLeaveTheInstanceUnchanged := by
  intro s t e
  obtain ⟨code, payload, hresp, herror⟩ := step_responds e
  refine ⟨code, payload, hresp, fun err => ?_⟩
  obtain ⟨hpayload, rest, rfl⟩ := herror err
  exact ⟨hpayload, rfl, rfl, rfl, rfl⟩

/-- Settles O17: what a step adds is a response frame, which begins with the number of one of the five codes. -/
theorem onlyTheFiveResponseCodesAreSent : Obligations.OnlyTheFiveResponseCodesAreSent := by
  refine ⟨⟨rfl, rfl, rfl, rfl, rfl⟩, fun s t e => ?_⟩
  obtain ⟨code, payload, hresp, _⟩ := step_responds e
  refine ⟨respond code payload, hresp, ?_, ?_⟩
  · rw [respond_length]
    exact Nat.le_add_right 4 _
  · rw [le32_respond]
    exact respCodeValue_toNat_le_four code

/-- Settles O18: decoding finds an illegal header, VALID is read before the lengths, and CONSTRUCT does not read VALID. -/
theorem errorPriorityOrder : Obligations.ErrorPriorityOrder := by
  intro s src dst key nonce counter
  obtain ⟨construct_short, _⟩ := constructBuildsTheInstanceOrChangesNothing key nonce counter s
  refine ⟨fun h rest illegal => ?_, fun hv => ⟨exec_not_valid hv id, exec_not_valid hv id⟩, fun hv => ?_,
    construct_short, fun hkey hnonce => ⟨_, execConstruct_long counter hkey hnonce, rfl⟩⟩
  · obtain ⟨_, _, hanswer⟩ := illegalHeaderAnsweredAndConsumesFourBytes h rest s
    exact (hanswer illegal).2
  · exact (shortDestinationRefusedBeforeAnyBlock src dst s hv).1

/-- Settles O26: VALID stops each of the four. -/
theorem commandsBeforeConstructAnswerNotConfigured : Obligations.CommandsBeforeConstructAnswerNotConfigured :=
  fun _ _ _ _ hv => ⟨exec_not_valid hv id, exec_not_valid hv id, exec_not_valid hv id, exec_not_valid hv id⟩

end Sys2Proof.Machine

/-! ### Reset and hazards: the facts the statements of 70_reset_and_hazards.md need

A frame sent to an empty command port is the next to run, as after any reset (R170, R171). A RESET_SEQ leaves words that
depend only on the ones no command but CONSTRUCT writes, so a later one with the same number restores them (R176). -/

namespace Sys2Proof.Machine

/-! #### A frame sent to an empty port -/

/-- A command whose frame is sent to an empty port is executed by the next step, whoever sent it. -/
theorem step_send_encode_of_empty {i : Instr} {s : State} (hw : i.wellFormed = true) (hp : s.cmdPort = []) (host : Nat) :
    step (hostAct (.send host (encode i)) s) = exec i { s with sender := host } := by
  rw [hostAct_send_accepted _ _ _ (accepts_of_empty s host hp), step_of_encode hw (rest := []) (by simp [hp]),
    takeFrom_consumed hp]

/-! #### Words that a RESET_SEQ restores -/

/-- The words RESET_SEQ leaves do not depend on the old S[12], S[14] and S[15] (R86). -/
theorem resequencedS_congr {S S' : Vector Word 16} (seq : Word64)
    (agree : ∀ (j : Nat) (_ : j < 16), j ≠ 12 → j ≠ 14 → j ≠ 15 → S'[j] = S[j]) :
    resequencedS S' seq = resequencedS S seq := by
  ext1 j hj
  by_cases written : j = 12 ∨ j = 14 ∨ j = 15
  · obtain rfl | rfl | rfl := written <;> simp
  · obtain ⟨h12, h14, h15⟩ : j ≠ 12 ∧ j ≠ 14 ∧ j ≠ 15 := by simpa only [not_or] using written
    rw [resequencedS_other S' seq hj h12 h14 h15, resequencedS_other S seq hj h12 h14 h15, agree j hj h12 h14 h15]

/-- What RESET_SEQ leaves of an instance (R86). -/
theorem exec_resetSeq_leaves (seq : Word64) {s : State} (hv : s.VALID = true) :
    ∃ t, exec (.resetSeq seq) s = .next t ∧ t.VALID = true ∧ t.S = resequencedS s.S seq :=
  ⟨_, execResetSeq_valid seq hv, hv, rfl⟩

/-! #### The statements of 70_reset_and_hazards.md -/

/-- Settles O5: a reset empties the command port, so the frame sent after it is the next to run. -/
theorem resetDiscardsPartialFrame : Obligations.ResetDiscardsPartialFrame :=
  fun _ _ host' _ _ hw => step_send_encode_of_empty hw rfl host'

/-- Settles O14: the step consumes the frame and executes its command, and every command adds one response frame. -/
theorem completeFrameAlwaysAnswered : Obligations.CompleteFrameAlwaysAnswered := by
  intro s i rest hd
  obtain ⟨t, code, payload, hexec, hcmd, hresp⟩ := exec_responds i (s.setCmdPort rest)
  exact ⟨t, code, payload, (step_of_command hd).trans hexec, hcmd, hresp⟩

/-- Settles O28: the commands in between keep every word that RESET_SEQ does not write, so the second RESET_SEQ leaves the
words the first left, and cores with the same S and VALID answer the same. -/
theorem repeatedSequenceNumberRepeatsTheKeystream : Obligations.RepeatedSequenceNumberRepeatsTheKeystream := by
  intro seq between later s hv hbetween
  obtain ⟨a, hfirst, hva, hSa⟩ := exec_resetSeq_leaves seq hv
  obtain ⟨b, hrun, hvb, hkept⟩ := runCommands_without_construct between a hbetween
  obtain ⟨c, hsecond, hvc, hSc⟩ := exec_resetSeq_leaves seq (hvb.trans hva)
  have restored : c.S = a.S := by
    rw [hSc, hSa]
    refine resequencedS_congr seq fun j hj h12 h14 h15 => ?_
    rw [hkept j hj h12 h14 h15, ← resequencedS_other s.S seq hj h12 h14 h15]
    simp only [hSa]
  have same : SameInstance a c := ⟨hva.trans hvc.symm, restored.symm⟩
  obtain ⟨a', c', out, ha', hc', houta, houtc, _⟩ := runCommands_answersAlike later same
  exact ⟨a, b, c, a', c', out, hfirst, hrun, hsecond, restored, ha', houta, hc', houtc⟩

/-- Settles O46: of its operands the latency of a command reads the lengths only. -/
theorem latencyIgnoresSecretValues : Obligations.LatencyIgnoresSecretValues :=
  ⟨fun _ _ _ _ _ _ hkey hnonce => congrArg₂ Config.latConstruct hkey hnonce, fun _ _ => rfl,
    fun _ _ _ _ hsrc hdst => ⟨congrArg₂ Config.latEncrypt hsrc hdst, congrArg₂ Config.latDecrypt hsrc hdst⟩⟩

end Sys2Proof.Machine
